-- ==== Sys2Proof/Word.lean ====
section
/-! DEFINITION. The block's words (spec/00_scope.md R10): a wire byte, a command word, the running CRC, the
result data. -/

namespace Sys2Proof

/-- A wire byte, or the byte operand of a command (R10, R51, R71). -/
abbrev Byte := BitVec 8

/-- A command word (R10, R70). -/
abbrev Word := BitVec 16

/-- The running CRC (R10, R20). -/
abbrev Crc := BitVec 16

/-- The 32 bits of `res_data` and of the decoder's value (R10, R20). -/
abbrev Data := BitVec 32

/-- `res_code`: four bits of aux above four bits of code (R10, R80). -/
abbrev Code := BitVec 8

/-- A nibble: the aux or the code of a result (R80). -/
abbrev Nibble := BitVec 4

end Sys2Proof
end

