-- ==== Sys2Proof/Config.lean ====
section
/-! DEFINITION. What an implementation or its controller fixes (spec/00_scope.md R7, R8, R9). The block's own two
parameters are plain data that State carries, so that a statement about every state is one about every value. -/

namespace Sys2Proof

/-- How the unframer reads the wire pair `A5 25` (R8; spec/90_conflicts.md C2). -/
inductive A525 where
  | asData
  | asEnd
deriving DecidableEq, Repr

/-- The block's implementation parameters (R7, R8). -/
structure Params where
  /-- PEND_W: the width in bits of the pending-echo counter (R7). -/
  pendW : Nat
  /-- P_A525 (R8). -/
  a525 : A525
deriving DecidableEq, Repr

/-- The defaults of R7 and R8. -/
def Params.default : Params := { pendW := 32, a525 := .asData }

/-- PEND_MAX = 2^PEND_W - 1 (R7). -/
def Params.pendMax (p : Params) : Nat := 2 ^ p.pendW - 1

/-- P_OPCODES: the device's opcodes, whose values the spec leaves to the controller (R9). -/
structure DeviceOpcodes where
  queryRevision : Byte
  querySignature : Byte
  queryBufferSize : Byte
  queryFlashSize : Byte
  checkCrc : Byte
  program : Byte
  verify : Byte
  startApplication : Byte
deriving DecidableEq, Repr

/-- The parameters that belong to the controller and never reach the block (R9). -/
structure ControllerParams where
  /-- P_OPCODES. -/
  opcodes : DeviceOpcodes
  /-- P_CRCCHK_FRAMED: false sends the CRC bytes raw (TXR), true framed (TXD). -/
  crcChkFramed : Bool
  /-- P_PW_REF: the byte passed to EPROBE. -/
  pwRef : Byte
deriving DecidableEq, Repr

/-- The eight opcodes as a list. -/
def DeviceOpcodes.toList (o : DeviceOpcodes) : List Byte :=
  [o.queryRevision, o.querySignature, o.queryBufferSize, o.queryFlashSize, o.checkCrc, o.program,
    o.verify, o.startApplication]

end Sys2Proof
end

