-- ==== Sys2Proof/Syntax.lean ====
section
/-! DEFINITION. The command set FBLP-1 (spec/30_encoding.md R70 to R72): one constructor per row of
spec/opcode_table.json, and the assembler's lines (R88, R89). -/

namespace Sys2Proof

/-- The fourteen commands of R72. The only operand form is one immediate byte (R71). -/
inductive Instr where
  | nop
  | crcclr
  | crcrd
  /-- The data byte. -/
  | txd (d : Byte)
  /-- The raw wire byte. -/
  | txr (b : Byte)
  /-- The device opcode. -/
  | txc (op8 : Byte)
  | txe
  | rxrd
  /-- The reference byte. -/
  | eprobe (ref : Byte)
  | eclr
  | dec
  /-- The wire byte to decode. -/
  | unf (b : Byte)
  | unfclr
  | stat
deriving DecidableEq, Repr

/-- Why a command word is illegal: the three conditions of R73, in its order. The block does not tell them apart. -/
inductive Illegal where
  /-- `op` is `0xE` or `0xF`. -/
  | reservedOp
  /-- `cmd[11:8]` is not zero. -/
  | rsvNotZero
  /-- `arg` is not zero and the command takes no operand. -/
  | argNotZero
deriving DecidableEq, Repr

/-- The mnemonics an assembler line may begin with: the commands of R72 and the pseudo-instructions of R89. -/
inductive Mnemonic where
  | nop | crcclr | crcrd | txd | txr | txc | txe | rxrd | eprobe | eclr | dec | unf | unfclr | stat
  | sendcmd | sendstr | sendblk | crcsend
deriving DecidableEq, Repr

/-- One line of assembler: a mnemonic and its operands as the numbers written (R88). -/
structure AsmLine where
  mnemonic : Mnemonic
  operands : List Nat
deriving DecidableEq, Repr

end Sys2Proof
end

