-- ==== Sys2Proof/WellFormed.lean ====
section
/-! DEFINITION. Which terms mean something: a legal command word (spec/30_encoding.md R73), an assembler line (R88),
the block's parameters (spec/00_scope.md R7) and the controller's (R9). Every term of `Instr` is well formed, since its only operand
is a byte by its type (R71). -/

namespace Sys2Proof

/-- The commands that take an operand byte (R72, R73). -/
def takesOperand (op : Nat) : Bool := op == 3 || op == 4 || op == 5 || op == 8 || op == 0xB

/-- R73's `Legal(cmd)`. -/
def legalWord (w : Word) : Bool :=
  let op := (w.extractLsb' 12 4).toNat
  let rsv := (w.extractLsb' 8 4).toNat
  let arg := (w.extractLsb' 0 8).toNat
  decide (op ≤ 0xD) && rsv == 0 && (takesOperand op || arg == 0)

/-- R7: PEND_W is 1 to 32. -/
def Params.wf (p : Params) : Bool := decide (1 ≤ p.pendW) && decide (p.pendW ≤ 32)

/-- R227 (b) and R226 (d): no opcode is `0x25` or `0x93`, and the probe's reference is not CONNECT. -/
def ControllerParams.wf (c : ControllerParams) : Bool :=
  c.opcodes.toList.all (fun o => o != 0x25 && o != 0x93) && c.pwRef != 0xA6

/-- How many operands a mnemonic takes: `none` for a list of at least one (R88, R89). -/
def Mnemonic.arity : Mnemonic → Option Nat
  | .nop | .crcclr | .crcrd | .txe | .rxrd | .eclr | .dec | .unfclr | .stat | .crcsend => some 0
  | .txd | .txr | .txc | .eprobe | .unf | .sendcmd => some 1
  | .sendstr | .sendblk => none

/-- R88: no operand on a command that takes none, none missing, and each 0 to 255. -/
def AsmLine.wf (l : AsmLine) : Bool :=
  (match l.mnemonic.arity with
    | some n => l.operands.length == n
    | none => !l.operands.isEmpty) &&
  l.operands.all (fun v => decide (v ≤ 255))

end Sys2Proof
end

