-- ==== Sys2Proof/Decode.lean ====
section
/-! DEFINITION. Decoding a command word and encoding a command (spec/30_encoding.md R70 to R73). A word is taken whole
and has no byte order (R56, R70). -/

namespace Sys2Proof

/-- `cmd[15:12]` (R70). -/
def fieldOp (w : Word) : Nibble := w.extractLsb' 12 4

/-- `cmd[11:8]` (R70). -/
def fieldRsv (w : Word) : Nibble := w.extractLsb' 8 4

/-- `cmd[7:0]`, as it stands (R71). -/
def fieldArg (w : Word) : Byte := w.extractLsb' 0 8

/-- The command without an operand that `i` names, if `arg` is zero (R73). -/
def noOperand (i : Instr) (arg : Byte) : Except Illegal Instr :=
  if arg = 0 then .ok i else .error .argNotZero

/-- The opcode map of R72, for a word whose `rsv` is zero. -/
def decodeOp (op : Nibble) (arg : Byte) : Except Illegal Instr :=
  match op.toNat with
  | 0x0 => noOperand .nop arg
  | 0x1 => noOperand .crcclr arg
  | 0x2 => noOperand .crcrd arg
  | 0x3 => .ok (.txd arg)
  | 0x4 => .ok (.txr arg)
  | 0x5 => .ok (.txc arg)
  | 0x6 => noOperand .txe arg
  | 0x7 => noOperand .rxrd arg
  | 0x8 => .ok (.eprobe arg)
  | 0x9 => noOperand .eclr arg
  | 0xA => noOperand .dec arg
  | 0xB => .ok (.unf arg)
  | 0xC => noOperand .unfclr arg
  | 0xD => noOperand .stat arg
  | _ => .error .reservedOp

/-- R73: what a command word is, or which condition makes it illegal. -/
def decodeWord (w : Word) : Except Illegal Instr :=
  if 0xD < (fieldOp w).toNat then .error .reservedOp
  else if fieldRsv w ≠ 0 then .error .rsvNotZero
  else decodeOp (fieldOp w) (fieldArg w)

/-- The opcode of a command (R72). -/
def Instr.op : Instr → Nibble
  | .nop => 0x0
  | .crcclr => 0x1
  | .crcrd => 0x2
  | .txd _ => 0x3
  | .txr _ => 0x4
  | .txc _ => 0x5
  | .txe => 0x6
  | .rxrd => 0x7
  | .eprobe _ => 0x8
  | .eclr => 0x9
  | .dec => 0xA
  | .unf _ => 0xB
  | .unfclr => 0xC
  | .stat => 0xD

/-- The operand byte of a command, `0x00` where it takes none (R70). -/
def Instr.arg : Instr → Byte
  | .txd b | .txr b | .txc b | .eprobe b | .unf b => b
  | .nop | .crcclr | .crcrd | .txe | .rxrd | .eclr | .dec | .unfclr | .stat => 0x00

/-- `(op << 12) | arg` (R70, R88). -/
def encode (i : Instr) : Word := (i.op.setWidth 16 <<< 12) ||| i.arg.setWidth 16

/-- The host's reading of one word of the opcode table: the decoder's answer for a word of at most 16 bits. -/
def decodeTableWord (nbits w : Nat) : Option Instr :=
  if 16 < nbits then none
  else
    match decodeWord (BitVec.ofNat 16 (w % 2 ^ nbits)) with
    | .ok i => some i
    | .error _ => none

end Sys2Proof
end

