-- ==== Sys2Proof/Machine/State.lean ====
section
/-! DEFINITION. The block's state (spec/10_state.md R20 to R31), the streams of its environment and the reasons a step
can stop. -/

namespace Sys2Proof.Machine

/-- What the Transport answers to one `Receive` (R51, R53). -/
inductive Answer where
  | byte (b : Byte)
  | timeout
deriving DecidableEq, Repr

/-- The response decoder's states (R28, R171). -/
inductive DecState where
  | sToken
  | sLen
  | sAcc
  | sTerm
deriving DecidableEq, Repr

/-- The response decoder's working registers (R28). -/
structure Decoder where
  dst : DecState
  /-- The announced length. -/
  dlen : BitVec 3
  /-- The value bytes still to come. -/
  drem : BitVec 3
  /-- The value so far. -/
  dval : Data
deriving DecidableEq, Repr

/-- One thing the outside does to the block, in the order it does them (R21, R64, R220, R221).
DESIGN CHOICE (log entries 2 and 8): held as data, so that a step is a function of the state. -/
inductive Input where
  /-- The controller writes a word to the command port, and it runs to completion. -/
  | command (w : Word)
  /-- The reset input, while no command runs. -/
  | reset
  /-- The controller writes a word, and the reset input cuts the command after `k` of its port actions. -/
  | cut (w : Word) (k : Nat)
deriving DecidableEq, Repr

structure State where
  /-- The running CRC (R20, R22). -/
  crc : Crc
  /-- One-wire mode is active (R20, R23). -/
  ow : Bool
  /-- The pending-echo count (R20, R24); an invariant keeps it within PEND_W bits (log entry 10). -/
  pend : Nat
  /-- The unframer waits for a follower (R20, R25). -/
  esc : Bool
  /-- The block is faulted (R20, R26). -/
  fault : Bool
  /-- The result code and aux of the last command (R20, R27). -/
  resCode : Code
  /-- The result data of the last command (R20, R27). -/
  resData : Data
  /-- The decoder's registers: they exist only while a DEC runs (R28; log entry 9). -/
  decoder : Option Decoder
  /-- PEND_W and P_A525 (R7, R8; log entry 1). -/
  params : Params
  /-- The send stream, oldest byte first (R31, R51; log entry 6). -/
  tx : List Byte
  /-- The receive stream: the answers the Transport will give, next first (R31, R51; log entry 4). -/
  rx : List Answer
  /-- What the controller and the reset input will do, next first (R21; log entry 2). -/
  inputs : List Input
deriving DecidableEq, Repr

/-- Why a step can stop for good. -/
inductive Fault where
  /-- Raised by RXRD, EPROBE and DEC: a `Receive` that the Transport never answers blocks the block forever, and the
  command has no next step (R53, R64, R215). Safe: the spec itself gives no next step. -/
  | receiveUnanswered
deriving DecidableEq, Repr

/-- Why a command has no meaning in the model. -/
inductive Refusal where
  /-- Raised by an arm of `exec` whose instruction has no meaning yet; no arm does. Safe: the model stops. -/
  | notModelled (mnemonic : String)
deriving DecidableEq, Repr

/-- What a command answers. -/
abbrev Out := Host.Outcome State Fault Refusal

/-- R220: the registers right after reset. The parameters are the defaults of R7 and R8 (log entry 1); no command is
waiting (log entry 2), nothing is received (log entry 4) and nothing has been sent (log entry 6). -/
def State.reset : State where
  crc := 0x0000
  ow := false
  pend := 0
  esc := false
  fault := false
  resCode := 0x00
  resData := 0x00000000
  decoder := none
  params := Params.default
  tx := []
  rx := []
  inputs := []

end Sys2Proof.Machine
end

