-- ==== Sys2Proof/Machine/Tokens.lean ====
section
/-! DEFINITION. The wire tokens and the numbering of results, symbols and decoder states (spec/30_encoding.md R80, R81,
R85, R87). -/

namespace Sys2Proof.Machine

/-- ESCAPE, also COMMAND (R85). -/
abbrev tokEscape : Byte := 0xA5
/-- CONNECT (R85). -/
abbrev tokConnect : Byte := 0xA6
/-- BADCOMMAND (R85). -/
abbrev tokBadCommand : Byte := 0xA7
/-- ANSWER (R85). -/
abbrev tokAnswer : Byte := 0xA8
/-- CONTINUE (R85). -/
abbrev tokContinue : Byte := 0xA9
/-- SUCCESS (R85). -/
abbrev tokSuccess : Byte := 0xAA
/-- FAIL (R85). -/
abbrev tokFail : Byte := 0xAB
/-- ESC_SHIFT: added to a reserved data byte after escaping (R85). -/
abbrev escShift : Byte := 0x80
/-- The flow-control character (R85, R100). -/
abbrev flowChar : Byte := 0x13

/-- The result codes that a command writes (R80). -/
inductive ResultCode where
  | ok | byte | matched | crc | value | fail | viol | timeout | sym | status | illegal | faulted
deriving DecidableEq, Repr

/-- `code` (R80). -/
def ResultCode.bits : ResultCode → Nibble
  | .ok => 0x0
  | .byte => 0x1
  | .matched => 0x2
  | .crc => 0x3
  | .value => 0x4
  | .fail => 0x5
  | .viol => 0x6
  | .timeout => 0x7
  | .sym => 0x8
  | .status => 0x9
  | .illegal => 0xE
  | .faulted => 0xF

/-- The unframer's symbol kinds (R81). -/
inductive SymKind where
  | none | data | token | flow | endMarker
deriving DecidableEq, Repr

/-- The kind in `aux` of a SYM result (R81). -/
def SymKind.bits : SymKind → Nibble
  | .none => 0
  | .data => 1
  | .token => 2
  | .flow => 3
  | .endMarker => 4

/-- The decoder state in `aux` of a VIOL or TIMEOUT result (R87). -/
def DecState.bits : DecState → Nibble
  | .sToken => 0
  | .sLen => 1
  | .sAcc => 2
  | .sTerm => 3

end Sys2Proof.Machine
end

