-- ==== Sys2Proof/Machine/Operands.lean ====
section
/-! DEFINITION. The values commands work on: zero extension (spec/00_scope.md R11), the CRC's byte views (R3, R56) and
the framer's encoding of a data byte (spec/40_framecodec.md R100, R101). -/

namespace Sys2Proof.Machine

/-- `zext_32` of a byte (R11, R80). -/
def byteData (b : Byte) : Data := b.setWidth 32

/-- `zext_32(crc)` (R11, R135). -/
def crcData (c : Crc) : Data := c.setWidth 32

/-- `zext_32(pend)` (R11, R29). -/
def pendData (n : Nat) : Data := BitVec.ofNat 32 n

/-- The low byte of the CRC, sent first (R3, R56). -/
def crcLow (c : Crc) : Byte := c.extractLsb' 0 8

/-- The high byte of the CRC, sent second (R3, R56). -/
def crcHigh (c : Crc) : Byte := c.extractLsb' 8 8

/-- The two reserved values (R100). -/
def reserved (d : Byte) : Bool := d == tokEscape || d == flowChar

/-- `Enc(d)`: the wire bytes that carry one data byte (R101). The sum is taken mod 2^8. -/
def enc (d : Byte) : List Byte :=
  if reserved d then [tokEscape, d + escShift] else [d]

end Sys2Proof.Machine
end

