-- ==== Sys2Proof/Machine/Flags.lean ====
section
/-! DEFINITION. The flags: the status view (spec/10_state.md R29) and the counter's overflow condition
(spec/20_memory.md R52). -/

namespace Sys2Proof.Machine

/-- PEND_MAX of this block (R7). -/
def State.pendMax (s : State) : Nat := s.params.pendMax

/-- `{0, fault, esc, ow}` (R29). -/
def statusAux (s : State) : Nibble :=
  (0#1 ++ BitVec.ofBool s.fault) ++ (BitVec.ofBool s.esc ++ BitVec.ofBool s.ow)

/-- The next `WireSend` overflows: `ow = 1` and `pend = PEND_MAX` (R52). -/
def State.sendOverflows (s : State) : Bool := s.ow && s.pend == s.pendMax

/-- `dst` as R28 gives it: between commands the decoder is in `S_TOKEN`. -/
def State.dst (s : State) : DecState :=
  match s.decoder with
  | none => .sToken
  | some d => d.dst

end Sys2Proof.Machine
end

