-- ==== Sys2Proof/Machine/Crc.lean ====
section
/-! DEFINITION. The CRC update function (spec/41_crc.md R131, R132). Its commands stand in Machine/Control.lean. -/

namespace Sys2Proof.Machine

/-- One iteration of R131: bit 0 is tested before the shift. -/
def crcShift (t : Crc) : Crc :=
  if t.getLsbD 0 then (t >>> 1) ^^^ 0xA001 else t >>> 1

/-- `n` iterations of R131. -/
def crcShifts : Nat → Crc → Crc
  | 0, t => t
  | n + 1, t => crcShifts n (crcShift t)

/-- `CrcStep(c, b)` (R131). -/
def crcStep (c : Crc) (b : Byte) : Crc := crcShifts 8 (c ^^^ b.setWidth 16)

/-- `CrcFold(c, bs)` (R132). -/
def crcFold : Crc → List Byte → Crc
  | c, [] => c
  | c, b :: bs => crcFold (crcStep c b) bs

end Sys2Proof.Machine
end

