-- ==== Sys2Proof/Machine/Ops.lean ====
section
/-! DEFINITION. The named operations every command is made of: `Result` (spec/30_encoding.md R80), the fault rule of
dispatch (spec/44_control.md R193), `WireSend`, `Receive` and `RecvSurfaced` (spec/20_memory.md R52 to R54), and the
reset input (spec/70_reset_and_hazards.md R220). The block takes no exception (spec/60_exceptions.md R200): the shared
error path is `Result`, and `abort FAULTED` is the one abort. -/

namespace Sys2Proof.Machine

/-- `Result(code, aux, data)`: `res_code <- {aux, code}`, `res_data <- data` (R80). -/
def State.result (s : State) (code : ResultCode) (aux : Nibble) (data : Data) : State :=
  { s with resCode := aux ++ code.bits, resData := data }

/-- The result a command leaves while the block is faulted, or as it aborts (R204). -/
def State.resultFaulted (s : State) : State := s.result .faulted 0 0

/-- R193's second test: while `fault = 1` a legal command other than STAT answers FAULTED and changes nothing else. -/
def unlessFaulted (s : State) (run : State → Out) : Out :=
  if s.fault then .next s.resultFaulted else run s

/-- The byte `w` goes out: the send stream, the CRC and the echo count (R52). -/
def State.pushWire (s : State) (w : Byte) : State :=
  { s with tx := s.tx ++ [w], crc := crcStep s.crc w, pend := if s.ow then s.pend + 1 else s.pend }

/-- `fault <- 1` (R26, R52). -/
def State.raiseFault (s : State) : State := { s with fault := true }

/-- How a `WireSend` ends: the byte is sent, or the command aborts with FAULTED (R52). -/
inductive SendEnd where
  | sent (s : State)
  | aborted (s : State)
deriving DecidableEq, Repr

/-- `WireSend(w)` (R52). -/
def wireSend (w : Byte) (s : State) : SendEnd :=
  if s.sendOverflows then .aborted s.raiseFault else .sent (s.pushWire w)

/-- `WireSend` of each byte in order, up to the first that aborts (R58, R61, R204). -/
def wireSendAll : List Byte → State → SendEnd
  | [], s => .sent s
  | w :: ws, s =>
    match wireSend w s with
    | .sent s' => wireSendAll ws s'
    | .aborted s' => .aborted s'

/-- A transmit command's steps: send, then `Result(OK, 0, 0)`; an abort ends it with FAULTED (R102 to R105, R204). -/
def transmit (ws : List Byte) (s : State) : Out :=
  match wireSendAll ws s with
  | .sent s' => .next (s'.result .ok 0 0)
  | .aborted s' => .next s'.resultFaulted

/-- The answer a `Receive` took is gone from the receive stream (R53). -/
def State.takeAnswer (s : State) (rest : List Answer) : State := { s with rx := rest }

/-- A received byte is dropped unexamined, and the count goes down by one (R54, R151). -/
def State.discardEcho (s : State) (rest : List Answer) : State :=
  { s with rx := rest, pend := s.pend - 1 }

/-- How `RecvSurfaced` ends. -/
inductive Received where
  | byte (b : Byte) (s : State)
  | timeout (s : State)
  /-- A `Receive` that is never answered (R64). -/
  | unanswered
deriving DecidableEq, Repr

/-- R54's loop over the answers `rx`: each head taken is one `Receive`. -/
def recvFrom : List Answer → State → Received
  | [], _ => .unanswered
  | .timeout :: rest, s => .timeout (s.takeAnswer rest)
  | .byte b :: rest, s =>
    if 0 < s.pend then recvFrom rest (s.discardEcho rest) else .byte b (s.takeAnswer rest)

/-- `RecvSurfaced()` (R54). -/
def recvSurfaced (s : State) : Received := recvFrom s.rx s

/-- A command that reads one surfaced byte: `onByte` says what it does with it, a timeout is `Result(TIMEOUT, 0, 0)`
(R152, R153, R202), and an unanswered `Receive` hangs (R64). -/
def receiveOne (onByte : Byte → State → State) (s : State) : Out :=
  match recvSurfaced s with
  | .byte b s' => .next (onByte b s')
  | .timeout s' => .next (s'.result .timeout 0 0)
  | .unanswered => .fault .receiveUnanswered

/-- The command after the one that answered `o`: it is taken when `o` is complete (R58, R60). -/
def andThen (o : Out) (f : State → Out) : Out :=
  match o with
  | .next s => f s
  | .fault e => .fault e
  | .refused e => .refused e

/-- The reset input: every register at its reset value; the streams, the parameters and what the outside will do next
are not the block's registers and stay (R220). -/
def State.resetInput (s : State) : State :=
  { State.reset with params := s.params, tx := s.tx, rx := s.rx, inputs := s.inputs }

end Sys2Proof.Machine
end

