-- ==== Sys2Proof/Machine/Control.lean ====
section
/-! DEFINITION. The control commands (spec/44_control.md R190 to R192) and the accumulator's (spec/41_crc.md R134,
R135). -/

namespace Sys2Proof.Machine

/-- NOP (R190). -/
def execNop (s : State) : Out := unlessFaulted s fun s => .next (s.result .ok 0 0)

/-- An illegal word completes at once, also while faulted (R191, R193). -/
def execIllegal (s : State) : Out := .next (s.result .illegal 0 0)

/-- STAT: exempt from the fault rule (R192). -/
def execStat (s : State) : Out := .next (s.result .status (statusAux s) (pendData s.pend))

/-- `crc <- 0x0000` (R134). -/
def State.clearCrc (s : State) : State := { s with crc := 0x0000 }

/-- CRCCLR (R134). -/
def execCrcclr (s : State) : Out := unlessFaulted s fun s => .next (s.clearCrc.result .ok 0 0)

/-- CRCRD (R135). -/
def execCrcrd (s : State) : Out := unlessFaulted s fun s => .next (s.result .crc 0 (crcData s.crc))

end Sys2Proof.Machine
end

