-- ==== Sys2Proof/Machine/Echo.lean ====
section
/-! DEFINITION. The receive commands of the echo suppressor (spec/42_echo.md R152 to R154). -/

namespace Sys2Proof.Machine

/-- `Result(BYTE, 0, zext_32(b))` (R152, R153). -/
def State.resultByte (s : State) (b : Byte) : State := s.result .byte 0 (byteData b)

/-- RXRD (R152). -/
def execRxrd (s : State) : Out := unlessFaulted s (receiveOne fun b s => s.resultByte b)

/-- `ow <- 1` (R23). -/
def State.setOneWire (s : State) : State := { s with ow := true }

/-- What EPROBE does with the surfaced byte `r` (R153). -/
def probeByte (ref r : Byte) (s : State) : State :=
  if r = ref then s.setOneWire.result .matched 0 (byteData r) else s.resultByte r

/-- EPROBE (R153). -/
def execEprobe (ref : Byte) (s : State) : Out := unlessFaulted s (receiveOne (probeByte ref))

/-- `ow <- 0; pend <- 0` (R154). -/
def State.clearEcho (s : State) : State := { s with ow := false, pend := 0 }

/-- ECLR (R154). -/
def execEclr (s : State) : Out := unlessFaulted s fun s => .next (s.clearEcho.result .ok 0 0)

end Sys2Proof.Machine
end

