-- ==== Sys2Proof/Machine/Framer.lean ====
section
/-! DEFINITION. The transmit commands (spec/40_framecodec.md R102 to R105) and the unframer's (R107, R108). -/

namespace Sys2Proof.Machine

/-- TXD (R102). -/
def execTxd (d : Byte) (s : State) : Out := unlessFaulted s (transmit (enc d))

/-- TXR (R103). -/
def execTxr (b : Byte) (s : State) : Out := unlessFaulted s (transmit [b])

/-- TXC (R104). -/
def execTxc (op8 : Byte) (s : State) : Out := unlessFaulted s (transmit [tokEscape, op8])

/-- TXE: the end-of-transfer marker (R105). -/
def execTxe (s : State) : Out := unlessFaulted s (transmit [tokEscape, tokEscape + escShift])

/-- `esc <- e` (R25). -/
def State.setEsc (s : State) (e : Bool) : State := { s with esc := e }

/-- `Result(SYM, kind, b)` (R81). -/
def State.symbol (s : State) (kind : SymKind) (b : Byte) : State :=
  s.result .sym kind.bits (byteData b)

/-- UNF in the idle state (R107, `esc = 0`). -/
def unfIdle (b : Byte) (s : State) : State :=
  if b = tokEscape then (s.setEsc true).symbol .none 0
  else if b = flowChar then s.symbol .flow b
  else s.symbol .data b

/-- UNF of a follower (R107, `esc = 1`). -/
def unfFollower (b : Byte) (s : State) : State :=
  let s := s.setEsc false
  if b = tokEscape + escShift then
    match s.params.a525 with
    | .asData => s.symbol .data tokEscape
    | .asEnd => s.symbol .endMarker b
  else if b = flowChar + escShift then s.symbol .data flowChar
  else s.symbol .token b

/-- UNF (R107). -/
def execUnf (b : Byte) (s : State) : Out :=
  unlessFaulted s fun s => .next (if s.esc then unfFollower b s else unfIdle b s)

/-- UNFCLR (R108). -/
def execUnfclr (s : State) : Out :=
  unlessFaulted s fun s => .next ((s.setEsc false).result .ok 0 0)

end Sys2Proof.Machine
end

