-- ==== Sys2Proof/Machine/ResponseDecoder.lean ====
section
/-! DEFINITION. The response decoder (spec/43_decoder.md R170 to R179): one transition function per state, and DEC. -/

namespace Sys2Proof.Machine

/-- DEC's start: `dst <- S_TOKEN; dval <- 0; dlen <- 0; drem <- 0` (R172). -/
def decoderInit : Decoder := { dst := .sToken, dlen := 0, drem := 0, dval := 0 }

/-- What a transition function answers: go on, or a terminal result (R171, R200). -/
inductive DecNext where
  | goOn (d : Decoder)
  | ends (code : ResultCode) (aux : Nibble) (data : Data)
deriving DecidableEq, Repr

/-- A protocol violation in state `st` by the byte `b` (R203). -/
def decViol (st : DecState) (b : Byte) : DecNext := .ends .viol st.bits (byteData b)

/-- `T_TOKEN(b)` (R173). -/
def tToken (b : Byte) (d : Decoder) : DecNext :=
  if b = tokFail then .ends .fail 0 0
  else if b = tokAnswer then .goOn { d with dst := .sLen }
  else decViol .sToken b

/-- `T_LEN(b)` (R174). -/
def tLen (b : Byte) (d : Decoder) : DecNext :=
  if 1 ≤ b.toNat ∧ b.toNat ≤ 4 then
    .goOn { d with dlen := b.setWidth 3, drem := b.setWidth 3, dst := .sAcc }
  else decViol .sLen b

/-- `T_ACC(b)`: the value so far times 256, plus the byte (R175). -/
def tAcc (b : Byte) (d : Decoder) : DecNext :=
  let d := { d with dval := d.dval * 256 + byteData b, drem := d.drem - 1 }
  .goOn (if d.drem = 0 then { d with dst := .sTerm } else d)

/-- `T_TERM(b)` (R176). -/
def tTerm (b : Byte) (d : Decoder) : DecNext :=
  if b = tokSuccess then .ends .value (d.dlen.setWidth 4) d.dval else decViol .sTerm b

/-- R172's `case dst of`. -/
def decTransition (b : Byte) (d : Decoder) : DecNext :=
  match d.dst with
  | .sToken => tToken b d
  | .sLen => tLen b d
  | .sAcc => tAcc b d
  | .sTerm => tTerm b d

/-- The decoder's registers take the values `d` (R28). -/
def State.setDecoder (s : State) (d : Decoder) : State := { s with decoder := some d }

/-- DEC ends: its registers are gone (R28). -/
def State.endDecoder (s : State) : State := { s with decoder := none }

/-- R172's loop. `fuel` is the number of answers left: each iteration takes at least one, so at fuel 0 the receive stream
is empty and the `Receive` is unanswered. -/
def decLoop : Nat → Decoder → State → Out
  | 0, _, _ => .fault .receiveUnanswered
  | fuel + 1, d, s =>
    match recvSurfaced (s.setDecoder d) with
    | .timeout s' => .next (s'.endDecoder.result .timeout d.dst.bits 0)
    | .unanswered => .fault .receiveUnanswered
    | .byte b s' =>
      match decTransition b d with
      | .goOn d' => decLoop fuel d' s'
      | .ends code aux data => .next (s'.endDecoder.result code aux data)

/-- DEC (R172). -/
def execDec (s : State) : Out := unlessFaulted s fun s => decLoop s.rx.length decoderInit s

end Sys2Proof.Machine
end

