-- ==== Sys2Proof/Machine/Dispatch.lean ====
section
/-! DEFINITION. One arm per command (spec/30_encoding.md R72, spec/44_control.md R193). -/

namespace Sys2Proof.Machine

def exec (i : Instr) (s : State) : Host.Outcome State Fault Refusal :=
  match i with
  | .nop => Sys2Proof.Machine.execNop s
  | .crcclr => Sys2Proof.Machine.execCrcclr s
  | .crcrd => Sys2Proof.Machine.execCrcrd s
  | .txd d => Sys2Proof.Machine.execTxd d s
  | .txr b => Sys2Proof.Machine.execTxr b s
  | .txc op8 => Sys2Proof.Machine.execTxc op8 s
  | .txe => Sys2Proof.Machine.execTxe s
  | .rxrd => Sys2Proof.Machine.execRxrd s
  | .eprobe ref => Sys2Proof.Machine.execEprobe ref s
  | .eclr => Sys2Proof.Machine.execEclr s
  | .dec => Sys2Proof.Machine.execDec s
  | .unf b => Sys2Proof.Machine.execUnf b s
  | .unfclr => Sys2Proof.Machine.execUnfclr s
  | .stat => Sys2Proof.Machine.execStat s

end Sys2Proof.Machine
end

