-- ==== Sys2Proof/Machine/Sequencer.lean ====
section
/-! DEFINITION. Taking a command word (spec/44_control.md R193), a command cut by the reset input
(spec/70_reset_and_hazards.md R221) and the command port (spec/20_memory.md R64). -/

namespace Sys2Proof.Machine

/-- R193: the legality of the word first; the fault rule is in each meaning. -/
def runWord (w : Word) (s : State) : Out :=
  match decodeWord w with
  | .error _ => execIllegal s
  | .ok i => exec i s

/-- A command that would have answered `o` from `s` is cut by the reset input after `k` of its port actions (a byte sent
or an answer consumed): those stand, no result is left, and the registers are those of reset (R58, R221; log entry 8).
A command that hangs has consumed every answer there is by then. -/
def cutByReset (k : Nat) (s : State) (o : Out) : State :=
  match o with
  | .next t =>
    { s.resetInput with
      tx := s.tx ++ (t.tx.drop s.tx.length).take k
      rx := s.rx.drop (min k (s.rx.length - t.rx.length)) }
  | .fault _ => { s.resetInput with rx := s.rx.drop k }
  | .refused _ => s.resetInput

/-- The block takes what comes next from outside (R21, R64). -/
def takeInput (i : Input) (s : State) : Out :=
  match i with
  | .command w => runWord w s
  | .reset => .next s.resetInput
  | .cut w k => .next (cutByReset k s (runWord w s))

/-- The rest of what the outside will do. -/
def State.withInputs (s : State) (rest : List Input) : State := { s with inputs := rest }

/-- One step: with nothing at the command port the block waits, and nothing happens (R209, R220; log entry 3). -/
def nextInput (s : State) : Out :=
  match s.inputs with
  | [] => .next s
  | i :: rest => takeInput i (s.withInputs rest)

/-- The controller's next word is `w` (R21, R64). -/
def State.offerWord (s : State) (w : Word) : State := s.withInputs (.command w :: s.inputs)

end Sys2Proof.Machine
end

