-- ==== Sys2Proof/Machine/Assembler.lean ====
section
/-! DEFINITION. The assembler (spec/30_encoding.md R88) and its pseudo-instructions (R89). It is the controller's tool
and no part of the block. Spacing and digits the spec leaves open are log entry 12's. -/

namespace Sys2Proof.Machine

/-- Why the assembler refuses a line (R88, R89). -/
inductive AsmError where
  | unknownMnemonic
  | badLiteral
  /-- An operand too many, or a missing one. -/
  | wrongOperandCount
  | operandOutOfRange
  /-- CRCSEND cannot be assembled statically. -/
  | operandsFromResult
deriving DecidableEq, Repr

/-- The spelling of each mnemonic (R72, R89). -/
def mnemonicTable : List (Mnemonic × String) :=
  [(.nop, "NOP"), (.crcclr, "CRCCLR"), (.crcrd, "CRCRD"), (.txd, "TXD"), (.txr, "TXR"), (.txc, "TXC"),
    (.txe, "TXE"), (.rxrd, "RXRD"), (.eprobe, "EPROBE"), (.eclr, "ECLR"), (.dec, "DEC"), (.unf, "UNF"),
    (.unfclr, "UNFCLR"), (.stat, "STAT"), (.sendcmd, "SENDCMD"), (.sendstr, "SENDSTR"),
    (.sendblk, "SENDBLK"), (.crcsend, "CRCSEND")]

/-- The digits of R88's two number forms, each at the place of its value. -/
def digitChars : List Char := "0123456789ABCDEF".toList

/-- The value of a digit in a base of at most 16; a letter counts in either case (log entry 12). -/
def digitValue (base : Nat) (c : Char) : Option Nat := (digitChars.take base).idxOf? c.toUpper

/-- The number that a row of digits writes, most significant first. -/
def numeral (base : Nat) (cs : List Char) : Option Nat :=
  cs.foldlM (fun acc c => (digitValue base c).map fun d => base * acc + d) 0

/-- An operand: `0xNN`, or a decimal number (R88). -/
def parseLiteral : List Char → Option Nat
  | [] => none
  | ['0', 'x', h, l] => numeral 16 [h, l]
  | cs => numeral 10 cs

/-- The text at commas. -/
def splitCommas : List Char → List (List Char)
  | [] => [[]]
  | c :: cs =>
    if c = ',' then [] :: splitCommas cs
    else
      match splitCommas cs with
      | p :: ps => (c :: p) :: ps
      | [] => [[c]]

/-- The text without the spaces at its end. -/
def dropTrailingSpaces (cs : List Char) : List Char := (cs.reverse.dropWhile (· == ' ')).reverse

/-- The line without its comment, which `;` starts (R88). -/
def stripComment (cs : List Char) : List Char := dropTrailingSpaces (cs.takeWhile (· != ';'))

/-- The operands after the mnemonic's one space, at commas (R88, R89). -/
def parseOperands (cs : List Char) : Option (List Nat) :=
  ((splitCommas cs).map fun p => parseLiteral (dropTrailingSpaces (p.dropWhile (· == ' ')))).mapM id

/-- A mnemonic by its spelling. -/
def parseMnemonic (cs : List Char) : Option Mnemonic :=
  (mnemonicTable.find? fun p => p.2.toList == cs).map Prod.fst

/-- One line of text; `none` is a line with no command (R88). -/
def parseLine (cs : List Char) : Except AsmError (Option AsmLine) :=
  let cs := stripComment cs
  if cs = [] then .ok none
  else
    match parseMnemonic (cs.takeWhile (· != ' ')) with
    | none => .error .unknownMnemonic
    | some m =>
      match cs.dropWhile (· != ' ') with
      | [] => .ok (some ⟨m, []⟩)
      | _ :: rest =>
        if rest.head? = some ' ' then .error .badLiteral
        else
          match parseOperands rest with
          | some vs => .ok (some ⟨m, vs⟩)
          | none => .error .badLiteral

/-- The commands a well-formed line stands for (R72, R89). -/
def expandLine (m : Mnemonic) (bs : List Byte) : Except AsmError (List Instr) :=
  match m, bs with
  | .nop, [] => .ok [.nop]
  | .crcclr, [] => .ok [.crcclr]
  | .crcrd, [] => .ok [.crcrd]
  | .txd, [b] => .ok [.txd b]
  | .txr, [b] => .ok [.txr b]
  | .txc, [b] => .ok [.txc b]
  | .txe, [] => .ok [.txe]
  | .rxrd, [] => .ok [.rxrd]
  | .eprobe, [b] => .ok [.eprobe b]
  | .eclr, [] => .ok [.eclr]
  | .dec, [] => .ok [.dec]
  | .unf, [b] => .ok [.unf b]
  | .unfclr, [] => .ok [.unfclr]
  | .stat, [] => .ok [.stat]
  | .sendcmd, [b] => .ok [.txc b]
  | .sendstr, b :: bs => .ok ((b :: bs).map .txr)
  | .sendblk, b :: bs => .ok ((b :: bs).map .txd)
  | .crcsend, [] => .error .operandsFromResult
  | _, _ => .error .wrongOperandCount

/-- One line: range first, then the number of operands (R88). -/
def assembleLine (l : AsmLine) : Except AsmError (List Instr) :=
  if l.operands.all (fun v => decide (v ≤ 255)) then
    expandLine l.mnemonic (l.operands.map (BitVec.ofNat 8))
  else .error .operandOutOfRange

/-- A line of text to command words, each `(op << 12) | arg` (R88). -/
def assembleText (cs : List Char) : Except AsmError (List Word) :=
  match parseLine cs with
  | .error e => .error e
  | .ok none => .ok []
  | .ok (some l) => (assembleLine l).map fun is => is.map encode

end Sys2Proof.Machine
end

