-- ==== Sys2Proof/Machine/Controller.lean ====
section
/-! DEFINITION. Command sequences of a controller: running commands in order (spec/20_memory.md R60, R65), CRCSEND
(spec/30_encoding.md R89) and the check-CRC exchange (spec/41_crc.md R137). They are no part of the block. -/

namespace Sys2Proof.Machine

/-- What the controller reads after a command: `res_code` and `res_data` (R27). -/
abbrev Result := Code × Data

/-- The result registers (R27). -/
def State.readResult (s : State) : Result := (s.resCode, s.resData)

/-- The commands run one after another (R60). -/
def execAll : List Instr → State → Out
  | [], s => .next s
  | i :: is, s => andThen (exec i s) (execAll is)

/-- The commands run one after another, with the result of each; `none` where one never completes (R65). -/
def runCommands : List Instr → State → Option (List Result × State)
  | [], s => some ([], s)
  | i :: is, s =>
    match exec i s with
    | .next t => (runCommands is t).map fun r => (t.readResult :: r.1, r.2)
    | .fault _ => none
    | .refused _ => none

/-- How the controller sends one byte of the CRC: raw, or framed under P_CRCCHK_FRAMED (R9, R89). -/
def sendCrcByte (framed : Bool) (b : Byte) : Instr := if framed then .txd b else .txr b

/-- CRCSEND: one CRCRD, then its low and its high byte (R89, R225). -/
def crcSend (framed : Bool) (s : State) : Out :=
  andThen (exec .crcrd s) fun t =>
    execAll [sendCrcByte framed (t.resData.extractLsb' 0 8), sendCrcByte framed (t.resData.extractLsb' 8 8)] t

/-- The five steps of the check-CRC exchange (R137). -/
def checkCrcExchange (c : ControllerParams) (s : State) : Out :=
  andThen (exec (.txc c.opcodes.checkCrc) s) fun s =>
    andThen (crcSend c.crcChkFramed s) fun s => exec .rxrd s

end Sys2Proof.Machine
end

