-- ==== Sys2Proof/Safety.lean ====
section
/-! DEFINITION. The terms claims are made in: the block's invariant, when a run is over and what it shows
(spec/20_memory.md R65), which results the block may leave (spec/30_encoding.md R80), and the history that the CRC and the
echo invariants speak of (spec/10_state.md R32, R33). -/

namespace Sys2Proof

/-- The wire bytes a transmit command names (R61, R102 to R105); none for any other command. -/
def Instr.wireBytes : Instr → List Byte
  | .txd d => Machine.enc d
  | .txr b => [b]
  | .txc op8 => [Machine.tokEscape, op8]
  | .txe => [Machine.tokEscape, Machine.tokEscape + Machine.escShift]
  | .nop | .crcclr | .crcrd | .rxrd | .eprobe _ | .eclr | .dec | .unf _ | .unfclr | .stat => []

/-- The commands that read the receive stream (R150). -/
def Instr.receives : Instr → Bool
  | .rxrd | .eprobe _ | .dec => true
  | .nop | .crcclr | .crcrd | .txd _ | .txr _ | .txc _ | .txe | .eclr | .unf _ | .unfclr | .stat => false

end Sys2Proof

namespace Sys2Proof.Machine

/-- What holds of the block between commands. -/
structure State.Ok (s : State) : Prop where
  /-- R7. -/
  params : s.params.wf = true
  /-- R24: `pend` stays within PEND_W bits. -/
  pend : s.pend ≤ s.pendMax
  /-- R28: no DEC runs. -/
  decoder : s.decoder = none
  /-- R23: while `ow = 0` the counter is not used. -/
  twoWire : s.ow = false → s.pend = 0
  /-- R26, R52: the fault is the overflow's. -/
  overflowed : s.fault = true → s.ow = true ∧ s.pend = s.pendMax

/-- The byte answers of a receive stream. -/
def byteAnswers (bs : List Byte) : List Answer := bs.map Answer.byte

/-- The state after the wire bytes `ws` went out, each with its CRC update and its echo count (R52). -/
def State.afterSending (s : State) (ws : List Byte) : State :=
  { s with
    tx := s.tx ++ ws
    crc := crcFold s.crc ws
    pend := if s.ow then s.pend + ws.length else s.pend }

/-- `n` more wire bytes fit the pending-echo counter (R52, R230). -/
def State.hasRoom (s : State) (n : Nat) : Prop := s.ow = true → s.pend + n ≤ s.pendMax

/-- The value bytes `vs` read big-endian (R175). -/
def bigEndian (vs : List Byte) : Nat := vs.foldl (fun v b => v * 256 + b.toNat) 0

/-- A run may end here: no input is left, and a faulted state is never final (R65, R204). -/
def State.final (s : State) : Bool := s.inputs.isEmpty && !s.fault

/-- The mnemonics without an operand, each with its command and its word (R72). -/
def plainLines : List (Mnemonic × Instr × Word) :=
  [(.nop, .nop, 0x0000), (.crcclr, .crcclr, 0x1000), (.crcrd, .crcrd, 0x2000), (.txe, .txe, 0x6000),
    (.rxrd, .rxrd, 0x7000), (.eclr, .eclr, 0x9000), (.dec, .dec, 0xA000), (.unfclr, .unfclr, 0xC000),
    (.stat, .stat, 0xD000)]

/-- The mnemonics with one operand `b`, each with its command and its word without the operand (R72); SENDCMD is TXC
(R89). -/
def operandLines (b : Byte) : List (Mnemonic × Instr × Word) :=
  [(.txd, .txd b, 0x3000), (.txr, .txr b, 0x4000), (.txc, .txc b, 0x5000), (.eprobe, .eprobe b, 0x8000),
    (.unf, .unf b, 0xB000), (.sendcmd, .txc b, 0x5000)]

/-- The symbols of R81's table: kind and data. -/
def symbolListed (kind : Nat) (data : Data) : Bool :=
  match kind with
  | 0 => data == 0x00
  | 1 | 2 => decide (data.toNat < 256)
  | 3 => data == 0x13
  | 4 => data == 0x25
  | _ => false

/-- The results of R80's table, with the aux each may carry and the data that is fixed (R81, R87). -/
def resultListed (r : Result) : Bool :=
  let aux := (r.1.extractLsb' 4 4).toNat
  let data := r.2
  match (r.1.extractLsb' 0 4).toNat with
  | 0x0 | 0x5 | 0xE | 0xF => aux == 0 && data == 0
  | 0x1 | 0x2 => aux == 0 && decide (data.toNat < 256)
  | 0x3 => aux == 0 && decide (data.toNat < 65536)
  | 0x4 => decide (1 ≤ aux) && decide (aux ≤ 4) && decide (data.toNat < 256 ^ aux)
  | 0x6 => (aux == 0 || aux == 1 || aux == 3) && decide (data.toNat < 256)
  | 0x7 => decide (aux ≤ 3) && data == 0
  | 0x8 => symbolListed aux data
  | 0x9 => decide (aux ≤ 7)
  | _ => false

/-- The result codes each command may write while the block is not faulted (R80). -/
def resultCodes : Instr → List Nibble
  | .nop | .crcclr | .eclr | .unfclr => [0x0]
  | .txd _ | .txr _ | .txc _ | .txe => [0x0, 0xF]
  | .crcrd => [0x3]
  | .rxrd => [0x1, 0x7]
  | .eprobe _ => [0x1, 0x2, 0x7]
  | .dec => [0x4, 0x5, 0x6, 0x7]
  | .unf _ => [0x8]
  | .stat => [0x9]

/-- The block's registers, and nothing beside them: R20's table. DEC's own exist only inside a DEC (R28). -/
structure Registers where
  crc : Crc
  ow : Bool
  pend : Nat
  esc : Bool
  fault : Bool
  resCode : Code
  resData : Data
deriving DecidableEq, Repr

/-- The values of the registers (R20). -/
def State.registers (s : State) : Registers where
  crc := s.crc
  ow := s.ow
  pend := s.pend
  esc := s.esc
  fault := s.fault
  resCode := s.resCode
  resData := s.resData

/-- What a run shows (R65): these four things. The answers left unread, what was sent before the run and what the
outside will do next are not among them. -/
structure RunView where
  /-- `(res_code, res_data)` after each command. -/
  results : List Result
  /-- The run's own part of the send stream. -/
  sent : List Byte
  /-- How many receive answers the run consumed. -/
  consumed : Nat
  /-- The final register values. -/
  final : Registers
deriving DecidableEq, Repr

/-- The view of a run of command words, `none` where its last command has not completed (R65). -/
def runView : List Word → State → Option RunView
  | [], s => some { results := [], sent := [], consumed := 0, final := s.registers }
  | w :: ws, s =>
    match runWord w s with
    | .next t =>
      (runView ws t).map fun v =>
        { results := t.readResult :: v.results
          sent := t.tx.drop s.tx.length ++ v.sent
          consumed := (s.rx.length - t.rx.length) + v.consumed
          final := v.final }
    | .fault _ => none
    | .refused _ => none

/-- The history R32 and R33 speak of; no part of the block. -/
structure History where
  /-- The wire bytes sent since the last CRCCLR or reset (R32). -/
  wire : List Byte
  /-- How many bytes were sent while `ow = 1`, since the last ECLR or reset (R33). -/
  counted : Nat
  /-- How many received bytes were discarded, since the last ECLR or reset (R33). -/
  discarded : Nat
deriving DecidableEq, Repr

/-- Right after reset. -/
def History.start : History := { wire := [], counted := 0, discarded := 0 }

/-- The leading byte answers of a receive stream, before the first `Timeout`. -/
def leadingBytes : List Answer → Nat
  | .byte _ :: rest => leadingBytes rest + 1
  | .timeout :: _ => 0
  | [] => 0

/-- The history after the command `i` took `s` to `t`. -/
def History.after (h : History) (i : Instr) (s t : State) : History :=
  let sent := t.tx.drop s.tx.length
  let runs := !s.fault
  { wire := if runs && i == .crcclr then [] else h.wire ++ sent
    counted := if runs && i == .eclr then 0 else h.counted + if s.ow then sent.length else 0
    discarded :=
      if runs && i == .eclr then 0
      else h.discarded + if runs && i.receives then min s.pend (leadingBytes s.rx) else 0 }

/-- The history after one step from `s` to `t`. -/
def History.step (h : History) (s t : State) : History :=
  match s.inputs with
  | [] => h
  | .command w :: _ =>
    match decodeWord w with
    | .ok i => h.after i s t
    | .error _ => h
  | .reset :: _ => .start
  | .cut _ _ :: _ => .start

/-- The CRC invariant (R32) and the echo invariant (R33). -/
structure History.Agrees (h : History) (s : State) : Prop where
  crc : s.crc = crcFold 0x0000 h.wire
  echo : s.pend + h.discarded = h.counted

end Sys2Proof.Machine
end

