-- ==== Sys2Proof/Certificates/Slice0/Obligations.lean ====
section
/-! DEFINITION. The statements for the provers, from the numbered rules of spec/. Each says its rule in its docstring. -/

open Sys2Proof Sys2Proof.Machine

/-! ### Encoding -/

/-- R70 to R72: decoding and encoding are inverse, in both directions, for every word and every operand byte. -/
def Obligations.DecodeEncodeAgree : Prop :=
  ∀ (w : Word) (i : Instr), decodeWord w = .ok i ↔ encode i = w

/-- R73: the legal words, by the three conditions and by match and mask; an illegal word only writes its result. -/
def Obligations.LegalWordsAreExactlyTheListed : Prop :=
  (∀ w : Word, (∃ i, decodeWord w = .ok i) ↔
    (w >>> 12).toNat ≤ 0xD ∧ w &&& 0x0F00 = 0 ∧
      ((w >>> 12).toNat ∈ [0x3, 0x4, 0x5, 0x8, 0xB] ∨ w &&& 0x00FF = 0)) ∧
  (∀ w : Word, (∃ i, decodeWord w = .ok i) ↔
    (∃ op ∈ ([0x3000, 0x4000, 0x5000, 0x8000, 0xB000] : List Word), w &&& 0xFF00 = op) ∨
    w ∈ ([0x0000, 0x1000, 0x2000, 0x6000, 0x7000, 0x9000, 0xA000, 0xC000, 0xD000] : List Word)) ∧
  ∀ (w : Word) (e : Illegal) (s : State), decodeWord w = .error e →
    runWord w s = .next { s with resCode := 0x0E, resData := 0 }

/-- R72: the words of spec/95_test_vectors.md decode to the commands they stand for (a sanity statement). -/
def Obligations.ListedWordsDecode : Prop :=
  decodeWord 0x0000 = .ok .nop ∧ decodeWord 0x1000 = .ok .crcclr ∧ decodeWord 0x2000 = .ok .crcrd ∧
  decodeWord 0x30A5 = .ok (.txd 0xA5) ∧ decodeWord 0x4013 = .ok (.txr 0x13) ∧
  decodeWord 0x5040 = .ok (.txc 0x40) ∧ decodeWord 0x6000 = .ok .txe ∧ decodeWord 0x7000 = .ok .rxrd ∧
  decodeWord 0x8057 = .ok (.eprobe 0x57) ∧ decodeWord 0x9000 = .ok .eclr ∧ decodeWord 0xA000 = .ok .dec ∧
  decodeWord 0xB025 = .ok (.unf 0x25) ∧ decodeWord 0xC000 = .ok .unfclr ∧ decodeWord 0xD000 = .ok .stat

/-- R72, R88, R89: the assembler takes exactly the well-formed lines but CRCSEND; each mnemonic gives the commands it
stands for, the pseudo-instructions theirs in operand order; and each command's word is `(op << 12) | arg`, which decodes
to it. -/
def Obligations.AssemblerTakesWellFormedLines : Prop :=
  ∀ l : AsmLine,
    ((∃ is, assembleLine l = .ok is) ↔ l.wf = true ∧ l.mnemonic ≠ .crcsend) ∧
    (∀ is, assembleLine l = .ok is →
      is ≠ [] ∧ ∀ i ∈ is, decodeWord (encode i) = .ok i ∧ i.arg.toNat ∈ 0 :: l.operands) ∧
    (l.mnemonic = .crcsend → l.wf = true → assembleLine l = .error .operandsFromResult) ∧
    (∀ m i w, (m, i, w) ∈ plainLines → l = ⟨m, []⟩ → assembleLine l = .ok [i] ∧ encode i = w) ∧
    (∀ m v i w, v ≤ 255 → (m, i, w) ∈ operandLines (BitVec.ofNat 8 v) → l = ⟨m, [v]⟩ →
      assembleLine l = .ok [i] ∧ encode i = w ||| BitVec.ofNat 16 v) ∧
    (∀ vs, vs ≠ [] → (∀ v ∈ vs, v ≤ 255) →
      (l = ⟨.sendstr, vs⟩ → assembleLine l = .ok (vs.map fun v => .txr (BitVec.ofNat 8 v))) ∧
      (l = ⟨.sendblk, vs⟩ → assembleLine l = .ok (vs.map fun v => .txd (BitVec.ofNat 8 v))))

/-! ### Dispatch, reset and the step -/

/-- R58, R60, R193: a step on a legal word is `exec` of the command it decodes to; nothing is added around it but that the word is
gone from what the controller will write. -/
def Obligations.StepRunsDecodedCommand : Prop :=
  ∀ (s : State) (w : Word) (rest : List Input) (i : Instr),
    s.inputs = .command w :: rest → decodeWord w = .ok i → step s = exec i { s with inputs := rest }

/-- R193: legality first, then the fault state, then the command's rule. -/
def Obligations.DispatchOrder : Prop :=
  ∀ (w : Word) (s : State),
    (∀ e, decodeWord w = .error e → runWord w s = .next { s with resCode := 0x0E, resData := 0 }) ∧
    (∀ i, decodeWord w = .ok i → s.fault = true → w.extractLsb' 12 4 ≠ 0xD →
      runWord w s = .next { s with resCode := 0x0F, resData := 0 }) ∧
    (∀ i, decodeWord w = .ok i → s.fault = false ∨ w.extractLsb' 12 4 = 0xD → runWord w s = exec i s)

/-- R191, R205: an illegal word completes at once, faulted or not, and writes only the result. -/
def Obligations.IllegalWordOnlyWritesResult : Prop :=
  (∀ w : Word, 0xE000 ≤ w.toNat ∨ w &&& 0x0F00 ≠ 0 → ∃ e, decodeWord w = .error e) ∧
  (∀ w : Word, (w >>> 12).toNat ∈ [0x0, 0x1, 0x2, 0x6, 0x7, 0x9, 0xA, 0xC, 0xD] → w &&& 0x00FF ≠ 0 → ∃ e, decodeWord w = .error e) ∧
  ∀ (s : State) (w : Word) (rest : List Input) (e : Illegal),
    s.inputs = .command w :: rest → decodeWord w = .error e →
      step s = .next { s with inputs := rest, resCode := 0x0E, resData := 0 }

/-- R209 and R220: with nothing at the command port, nothing happens. That this is a step which changes nothing is the
model's choice (log entry 3). -/
def Obligations.IdleBlockChangesNothing : Prop :=
  ∀ s : State, s.inputs = [] → step s = .next s

/-- R220: the reset values, at power-on and by the reset input between commands, which touches neither stream. -/
def Obligations.ResetInputRestoresRegisters : Prop :=
  (State.reset.crc = 0x0000 ∧ State.reset.ow = false ∧ State.reset.pend = 0 ∧ State.reset.esc = false ∧
    State.reset.fault = false ∧ State.reset.resCode = 0x00 ∧ State.reset.resData = 0x00000000 ∧
    State.reset.decoder = none) ∧
  ∀ (s : State) (rest : List Input), s.inputs = .reset :: rest →
    ∃ t, step s = .next t ∧ t.crc = 0x0000 ∧ t.ow = false ∧ t.pend = 0 ∧ t.esc = false ∧ t.fault = false ∧
      t.resCode = 0x00 ∧ t.resData = 0x00000000 ∧ t.decoder = none ∧ t.tx = s.tx ∧ t.rx = s.rx ∧ t.inputs = rest

/-- R221: a reset inside a command leaves the reset state, and exactly the first `k` port actions stand: bytes sent stay
sent, answers consumed stay consumed. -/
def Obligations.ResetCutsRunningCommand : Prop :=
  ∀ (s : State) (w : Word) (k : Nat) (rest : List Input), s.inputs = .cut w k :: rest →
    ∃ t, step s = .next t ∧
      t = { State.reset with params := s.params, inputs := rest, tx := t.tx, rx := t.rx } ∧
      (∀ u, runWord w { s with inputs := rest } = .next u →
        ∃ sent taken, u.tx = s.tx ++ sent ∧ s.rx = taken ++ u.rx ∧
          t.tx = s.tx ++ sent.take k ∧ t.rx = taken.drop k ++ u.rx) ∧
      (∀ e, runWord w { s with inputs := rest } = .fault e → t.tx = s.tx ∧ t.rx = s.rx.drop k)

/-- R26, R204: while faulted every command but STAT answers FAULTED and changes nothing else; only the reset input clears
`fault`; an overflowing send sets it, and nothing else does. -/
def Obligations.FaultIsSticky : Prop :=
  (∀ (w : Byte) (s : State), s.ow = true → s.pend = s.pendMax → wireSend w s = .aborted { s with fault := true }) ∧
  (∀ (i : Instr) (s : State), s.fault = true → i ≠ .stat →
    exec i s = .next { s with resCode := 0x0F, resData := 0 }) ∧
  (∀ s t : State, s.fault = true → step s = .next t → t.fault = false →
    ∃ rest, s.inputs = .reset :: rest ∨ ∃ w k, s.inputs = .cut w k :: rest) ∧
  ∀ (i : Instr) (s t : State), s.fault = false → exec i s = .next t → t.fault = true →
    s.ow = true ∧ t.pend = s.pendMax ∧ i.wireBytes ≠ [] ∧ t.resCode = 0x0F ∧ t.resData = 0

/-! ### Control and the accumulator -/

/-- R190. -/
def Obligations.NopWritesOnlyResult : Prop :=
  decodeWord 0x0000 = .ok .nop ∧
  ∀ s : State,
    (s.fault = false → exec .nop s = .next { s with resCode := 0x00, resData := 0 }) ∧
    (s.fault = true → exec .nop s = .next { s with resCode := 0x0F, resData := 0 })

/-- R192, R29: STAT in every state, faulted or not. -/
def Obligations.StatReportsFlagsAndCounter : Prop :=
  decodeWord 0xD000 = .ok .stat ∧
  ∀ s : State, ∃ t, exec .stat s = .next t ∧
    t = { s with resCode := t.resCode, resData := t.resData } ∧
    t.resCode.extractLsb' 0 4 = 0x9 ∧
    t.resCode.getLsbD 4 = s.ow ∧ t.resCode.getLsbD 5 = s.esc ∧ t.resCode.getLsbD 6 = s.fault ∧
    t.resCode.getLsbD 7 = false ∧
    t.resData = BitVec.ofNat 32 s.pend ∧ (s.Ok → t.resData.toNat = s.pend)

/-- R134. -/
def Obligations.CrcclrClearsAccumulator : Prop :=
  decodeWord 0x1000 = .ok .crcclr ∧
  ∀ s : State,
    (s.fault = false → exec .crcclr s = .next { s with crc := 0x0000, resCode := 0x00, resData := 0 }) ∧
    (s.fault = true → exec .crcclr s = .next { s with resCode := 0x0F, resData := 0 })

/-- R135: one snapshot of all 16 bits, the low byte in `res_data[7:0]` and the high byte in `res_data[15:8]`. -/
def Obligations.CrcrdReadsAccumulator : Prop :=
  decodeWord 0x2000 = .ok .crcrd ∧
  ∀ s : State,
    (s.fault = false → ∃ t, exec .crcrd s = .next t ∧ t = { s with resCode := 0x03, resData := t.resData } ∧
      t.resData.toNat = s.crc.toNat ∧ t.resData.extractLsb' 0 8 = s.crc.extractLsb' 0 8 ∧
      t.resData.extractLsb' 8 8 = s.crc.extractLsb' 8 8) ∧
    (s.fault = true → exec .crcrd s = .next { s with resCode := 0x0F, resData := 0 })

/-- R131: the update function, with the rule's examples and others of spec/95_test_vectors.md section 2.1. -/
def Obligations.CrcStepIsBitSerial : Prop :=
  (∀ (c : Crc) (b : Byte), crcStep c b =
    (fun t : Crc => if t &&& 1 = 1 then (t >>> 1) ^^^ 0xA001 else t >>> 1)^[8] (c ^^^ b.setWidth 16)) ∧
  crcStep 0x0000 0x00 = 0x0000 ∧ crcStep 0x0000 0x01 = 0xC0C1 ∧ crcStep 0x0000 0x80 = 0xA001 ∧
  crcStep 0x0000 0xFF = 0x4040 ∧ crcStep 0xFFFF 0x00 = 0x40BF ∧ crcStep 0x1234 0x34 = 0x0012

/-- R131: the byte-at-a-time table form of the same CRC: the step depends on the low byte of `c ^ b` only. -/
def Obligations.CrcStepMatchesTableForm : Prop :=
  ∀ (c : Crc) (b : Byte), crcStep c b = (c >>> 8) ^^^ crcStep 0x0000 (c.setWidth 8 ^^^ b)

/-- R131: the polynomial `0x8005` processed most significant bit first, with reflected input and output, gives the same
function. That this is the catalogued form is R136's, which the spec marks as general knowledge. -/
def Obligations.CrcStepMatchesMsbFirstForm : Prop :=
  ∀ (c : Crc) (b : Byte), crcStep c b =
    ((fun t : Crc => if t.msb then (t <<< 1) ^^^ 0x8005 else t <<< 1)^[8]
      (c.reverse ^^^ (b.reverse.setWidth 16 <<< 8))).reverse

/-- R133: the accumulator's low byte and then its high byte drive it to zero; the other order does not. -/
def Obligations.CrcResidualIsZero : Prop :=
  (∀ m : List Byte, crcFold 0x0000 (m ++ [(crcFold 0x0000 m).extractLsb' 0 8, (crcFold 0x0000 m).extractLsb' 8 8]) = 0x0000) ∧
  crcFold 0x0000 ([0x31, 0x32, 0x33, 0x34, 0x35, 0x36, 0x37, 0x38, 0x39] ++ [0xBB, 0x3D]) = 0xC2E3

/-- R22, R130, R61: every command sends an initial part of the bytes it names, `crc` takes each sent byte once and in order, and
only CRCCLR writes it otherwise. -/
def Obligations.CrcFollowsTheWire : Prop :=
  ∀ (i : Instr) (s t : State), exec i s = .next t →
    ∃ sent, sent <+: i.wireBytes ∧ t.tx = s.tx ++ sent ∧
      t.crc = if i = .crcclr ∧ s.fault = false then 0x0000 else crcFold s.crc sent

/-! ### Transmit -/

/-- What a transmit command that names the wire bytes `ws` does in every state whose counter is within its bound: all of
them go out; or the first that does not fit faults the block, and those before it stand; or the block is faulted. -/
def Sys2Proof.Machine.TransmitRule (i : Instr) (ws : List Byte) : Prop :=
  ∀ s : State,
    (s.fault = true → exec i s = .next { s with resCode := 0x0F, resData := 0 }) ∧
    (s.fault = false → s.hasRoom ws.length →
      exec i s = .next { s.afterSending ws with resCode := 0x00, resData := 0 }) ∧
    (s.fault = false → ∀ before w after, ws = before ++ w :: after → s.ow = true →
      s.pend + before.length = s.pendMax →
      exec i s = .next { s.afterSending before with fault := true, resCode := 0x0F, resData := 0 })

/-- R52: `WireSend`, in every state. -/
def Obligations.WireSendBookkeeping : Prop :=
  ∀ (w : Byte) (s : State), wireSend w s =
    if s.ow = true ∧ s.pend = 2 ^ s.params.pendW - 1 then .aborted { s with fault := true }
    else .sent { s with tx := s.tx ++ [w], crc := crcStep s.crc w, pend := if s.ow then s.pend + 1 else s.pend }

/-- R101, R102. -/
def Obligations.TxdSendsEncodedByte : Prop :=
  ∀ d : Byte, decodeWord (0x3000 ||| d.setWidth 16) = .ok (.txd d) ∧
    TransmitRule (.txd d) (if d = 0xA5 then [0xA5, 0x25] else if d = 0x13 then [0xA5, 0x93] else [d])

/-- R103. -/
def Obligations.TxrSendsRawByte : Prop :=
  ∀ b : Byte, decodeWord (0x4000 ||| b.setWidth 16) = .ok (.txr b) ∧ TransmitRule (.txr b) [b]

/-- R104. -/
def Obligations.TxcSendsEscapeAndOpcode : Prop :=
  ∀ b : Byte, decodeWord (0x5000 ||| b.setWidth 16) = .ok (.txc b) ∧ TransmitRule (.txc b) [0xA5, b]

/-- R105. -/
def Obligations.TxeSendsEndMarker : Prop :=
  decodeWord 0x6000 = .ok .txe ∧ TransmitRule .txe [0xA5, 0x25]

/-- R100, R228: whatever data goes out through TXD, `0x13` is never on the wire, and `0xA5` only as the first byte of
an escape pair. -/
def Obligations.FramedDataHidesReservedValues : Prop :=
  ∀ (ds : List Byte) (s t : State), execAll (ds.map .txd) s = .next t → t.fault = false →
    ∃ sent, t.tx = s.tx ++ sent ∧ 0x13 ∉ sent ∧
      ∀ before after, sent = before ++ 0xA5 :: after → ∃ f rest, after = f :: rest ∧ (f = 0x25 ∨ f = 0x93)

/-- R227: the commands a device cannot tell apart behave alike in every state. -/
def Obligations.WireAmbiguity : Prop :=
  ∀ s : State, exec (.txd 0xA5) s = exec .txe s ∧ exec (.txc 0x25) s = exec .txe s ∧
    exec (.txc 0x93) s = exec (.txd 0x13) s

/-- R230: a window of data bytes within the bound never faults. -/
def Obligations.WindowWithinBoundDoesNotFault : Prop :=
  ∀ (s : State) (op8 : Byte) (ds : List Byte) (bufferSize : Nat),
    s.fault = false → s.pend = 0 → ds.length ≤ bufferSize → 2 * bufferSize + 2 ≤ s.pendMax →
    ∃ t, execAll (.txc op8 :: ds.map .txd) s = .next t ∧ t.fault = false ∧
      t.tx = s.tx ++ [0xA5, op8] ++ ds.flatMap enc

/-! ### The unframer -/

/-- R107: every row of the unframer, in every state; and `esc` persists across every other command until the follower
or UNFCLR. -/
def Obligations.UnfDecodesOneByte : Prop :=
  (∀ (i : Instr) (s t : State), (∀ b, i ≠ .unf b) → i ≠ .unfclr → exec i s = .next t → t.esc = s.esc) ∧
  ∀ (b : Byte) (s : State), decodeWord (0xB000 ||| b.setWidth 16) = .ok (.unf b) ∧
    (s.fault = true → exec (.unf b) s = .next { s with resCode := 0x0F, resData := 0 }) ∧
    (s.fault = false → s.esc = false → exec (.unf b) s = .next
      (if b = 0xA5 then { s with esc := true, resCode := 0x08, resData := 0 }
       else if b = 0x13 then { s with resCode := 0x38, resData := 0x13 }
       else { s with resCode := 0x18, resData := b.setWidth 32 })) ∧
    (s.fault = false → s.esc = true → exec (.unf b) s = .next
      (if b = 0x25 then
        (if s.params.a525 = .asData then { s with esc := false, resCode := 0x18, resData := 0xA5 }
         else { s with esc := false, resCode := 0x48, resData := 0x25 })
       else if b = 0x93 then { s with esc := false, resCode := 0x18, resData := 0x13 }
       else { s with esc := false, resCode := 0x28, resData := b.setWidth 32 }))

/-- R108. -/
def Obligations.UnfclrForgetsEscape : Prop :=
  decodeWord 0xC000 = .ok .unfclr ∧
  ∀ s : State,
    (s.fault = false → exec .unfclr s = .next { s with esc := false, resCode := 0x00, resData := 0 }) ∧
    (s.fault = true → exec .unfclr s = .next { s with resCode := 0x0F, resData := 0 })

/-- R109: the wire bytes of any data, fed to UNF from the idle state, give back the data, one symbol a byte once the NONE
symbols are dropped; under AS_END the byte `0xA5` gives END. Nothing but the result registers differs at the end. -/
def Obligations.UnframerInvertsFramer : Prop :=
  ∀ (ds : List Byte) (s : State), s.fault = false → s.esc = false →
    ∃ rs t, runCommands ((ds.flatMap enc).map .unf) s = some (rs, t) ∧
      t = { s with resCode := t.resCode, resData := t.resData } ∧
      rs.filter (fun r => r.1 ≠ 0x08) = ds.map (fun d =>
        if d = 0xA5 ∧ s.params.a525 = .asEnd then (0x48, 0x25) else (0x18, d.setWidth 32))

/-- R25, R106: `esc` is changed by UNF and UNFCLR only, and no command but those and STAT depends on it. -/
def Obligations.UnframerIsSeparate : Prop :=
  (∀ (i : Instr) (s t : State), exec i s = .next t → t.esc ≠ s.esc → (∃ b, i = .unf b) ∨ i = .unfclr) ∧
  (∀ (i : Instr) (s t : State), exec i s = .next t → s.esc = false → t.esc = true → i = .unf 0xA5) ∧
  ∀ (i : Instr) (s t : State) (e : Bool), (∀ b, i ≠ .unf b) → i ≠ .unfclr → i ≠ .stat →
    exec i s = .next t → exec i { s with esc := e } = .next { t with esc := e }

/-! ### The echo suppressor -/

/-- R54, R152: one surfaced byte, or a timeout with the discards before it standing. -/
def Obligations.RxrdReadsSurfacedByte : Prop :=
  decodeWord 0x7000 = .ok .rxrd ∧
  ∀ s : State,
    (s.fault = true → exec .rxrd s = .next { s with resCode := 0x0F, resData := 0 }) ∧
    (∀ es b rest, s.fault = false → s.rx = byteAnswers es ++ .byte b :: rest → es.length = s.pend →
      exec .rxrd s = .next { s with pend := 0, rx := rest, resCode := 0x01, resData := b.setWidth 32 }) ∧
    (∀ es rest, s.fault = false → s.rx = byteAnswers es ++ .timeout :: rest → es.length ≤ s.pend →
      exec .rxrd s = .next { s with pend := s.pend - es.length, rx := rest, resCode := 0x07, resData := 0 })

/-- R153. -/
def Obligations.EprobeDetectsOneWire : Prop :=
  ∀ (ref : Byte) (s : State), decodeWord (0x8000 ||| ref.setWidth 16) = .ok (.eprobe ref) ∧
    (s.fault = true → exec (.eprobe ref) s = .next { s with resCode := 0x0F, resData := 0 }) ∧
    (∀ es b rest, s.fault = false → s.rx = byteAnswers es ++ .byte b :: rest → es.length = s.pend →
      exec (.eprobe ref) s = .next
        (if b = ref then { s with ow := true, pend := 0, rx := rest, resCode := 0x02, resData := b.setWidth 32 }
         else { s with pend := 0, rx := rest, resCode := 0x01, resData := b.setWidth 32 })) ∧
    (∀ es rest, s.fault = false → s.rx = byteAnswers es ++ .timeout :: rest → es.length ≤ s.pend →
      exec (.eprobe ref) s = .next
        { s with pend := s.pend - es.length, rx := rest, resCode := 0x07, resData := 0 })

/-- R154. -/
def Obligations.EclrForgetsEchoes : Prop :=
  decodeWord 0x9000 = .ok .eclr ∧
  ∀ s : State,
    (s.fault = false → exec .eclr s = .next { s with ow := false, pend := 0, resCode := 0x00, resData := 0 }) ∧
    (s.fault = true → exec .eclr s = .next { s with resCode := 0x0F, resData := 0 })

/-- R53, R64, R215, with R54 and R172 to R176: a command stops exactly where it makes a `Receive` that is never
answered: RXRD and EPROBE where the stream is no more than the pending echoes, DEC there and where it is the echoes and
then a proper initial part of a reply. That a `Receive` of an exhausted list is never answered, and stops with a named
fault, is log entry 5. -/
def Obligations.OnlyUnansweredReceiveHangs : Prop :=
  (∀ (i : Instr) (s : State), exec i s = .fault .receiveUnanswered ↔
    i.receives = true ∧ s.fault = false ∧
      ((∃ es : List Byte, s.rx = byteAnswers es ∧ es.length ≤ s.pend) ∨
        i = .dec ∧ ∃ es part vs : List Byte, s.rx = byteAnswers (es ++ part) ∧ es.length = s.pend ∧
          1 ≤ vs.length ∧ vs.length ≤ 4 ∧
          part <+: 0xA8 :: BitVec.ofNat 8 vs.length :: (vs ++ [0xAA]) ∧ part.length < vs.length + 3)) ∧
  (∀ (i : Instr) (s : State) (e : Fault), exec i s = .fault e →
    i.receives = true ∧ s.fault = false ∧ .timeout ∉ s.rx ∧ (i ≠ .dec → s.rx.length ≤ s.pend) ∧
      s.rx.length ≤ s.pend + 6) ∧
  ∀ (i : Instr) (s : State) (r : Refusal), exec i s ≠ .refused r

/-- R53, R54, R58, R172 to R176: with a `Timeout` somewhere in the stream, or answers enough (the pending echoes and the
seven bytes of the longest reply), RXRD, EPROBE and DEC complete, and write only what R152, R153, R172 and R28 name. -/
def Obligations.ReceivingCommandsComplete : Prop :=
  ∀ (i : Instr) (s : State), i.receives = true → s.fault = false →
    .timeout ∈ s.rx ∨ s.pend + 7 ≤ s.rx.length →
    ∃ t, exec i s = .next t ∧
      t = { s with ow := t.ow, pend := t.pend, rx := t.rx, decoder := t.decoder, resCode := t.resCode, resData := t.resData } ∧
      (t.ow ≠ s.ow → ∃ ref, i = .eprobe ref) ∧ t.pend ≤ s.pend ∧
      (∃ taken, taken ≠ [] ∧ s.rx = taken ++ t.rx) ∧
      t.decoder = (if i = .dec then none else s.decoder)

/-- R155: after `N` wire bytes in one-wire mode `pend` is `N`, and the next surfaced read discards `N` answers and
returns the one after them. -/
def Obligations.EchoesOfSentBytesAreDiscarded : Prop :=
  ∀ (cmds : List Instr) (s : State) (es : List Byte) (b : Byte) (rest : List Answer),
    s.fault = false → s.ow = true → s.pend = 0 → (∀ i ∈ cmds, i.wireBytes ≠ []) →
    (cmds.flatMap Instr.wireBytes).length ≤ s.pendMax →
    es.length = (cmds.flatMap Instr.wireBytes).length → s.rx = byteAnswers es ++ .byte b :: rest →
    ∃ u t, execAll cmds s = .next u ∧ u.pend = es.length ∧ u.rx = s.rx ∧
      u.tx = s.tx ++ cmds.flatMap Instr.wireBytes ∧
      recvSurfaced u = .byte b { u with pend := 0, rx := rest } ∧
      exec .rxrd u = .next t ∧ t.resCode = 0x01 ∧ t.resData = b.setWidth 32 ∧ t.pend = 0 ∧ t.rx = rest ∧ t.tx = u.tx

/-- R151: two receive streams that differ only in discarded bytes give the same outcome. -/
def Obligations.DiscardedBytesAreNotExamined : Prop :=
  ∀ (i : Instr) (s : State) (es es' : List Byte) (rest : List Answer),
    i.receives = true → s.fault = false → es.length = es'.length → es.length ≤ s.pend →
    exec i { s with rx := byteAnswers es ++ rest } = exec i { s with rx := byteAnswers es' ++ rest }

/-- R31, R179: what a command does not read it does not depend on, and it stays in the Transport. -/
def Obligations.UnreadAnswersStay : Prop :=
  ∀ (i : Instr) (s t : State) (more : List Answer), exec i s = .next t →
    exec i { s with rx := s.rx ++ more } = .next { t with rx := t.rx ++ more }

/-- R23: what sets and clears `ow`, and what it does to the counter. -/
def Obligations.OneWireFlagRule : Prop :=
  ∀ (i : Instr) (s t : State), exec i s = .next t →
    (s.ow = false → t.ow = true → ∃ ref, i = .eprobe ref ∧ t.resCode = 0x02 ∧ t.resData = ref.setWidth 32) ∧
    (s.ow = true → t.ow = false → i = .eclr) ∧
    (s.ow = false → t.pend ≤ s.pend) ∧
    (∀ sent, t.tx = s.tx ++ sent → i.wireBytes ≠ [] → t.pend = if s.ow then s.pend + sent.length else s.pend)

/-! ### The response decoder -/

/-- R170, R172, R175, R176: a whole reply, after the pending echoes, gives its value big-endian and its length, whatever
the value bytes are; later answers stay. -/
def Obligations.DecDecodesReply : Prop :=
  decodeWord 0xA000 = .ok .dec ∧
  ∀ (s : State) (es vs : List Byte) (rest : List Answer),
    s.fault = false → es.length = s.pend → 1 ≤ vs.length → vs.length ≤ 4 →
    s.rx = byteAnswers (es ++ [0xA8, BitVec.ofNat 8 vs.length] ++ vs ++ [0xAA]) ++ rest →
    bigEndian vs < 2 ^ 32 ∧
    exec .dec s = .next { s with
      pend := 0, rx := rest, decoder := none
      resCode := BitVec.ofNat 4 vs.length ++ 0x4#4, resData := BitVec.ofNat 32 (bigEndian vs) }

/-- R206, R173: a FAIL token first is the Fail result, with no value. -/
def Obligations.DecReportsFail : Prop :=
  ∀ (s : State) (es : List Byte) (rest : List Answer),
    s.fault = false → es.length = s.pend → s.rx = byteAnswers (es ++ [0xAB]) ++ rest →
    exec .dec s = .next { s with pend := 0, rx := rest, decoder := none, resCode := 0x05, resData := 0 }

/-- R173, R174, R176, R203: the byte a state does not accept ends DEC, is reported with the state, and is the last byte
consumed. -/
def Obligations.DecReportsViolations : Prop :=
  ∀ (s : State) (es vs : List Byte) (b : Byte) (rest : List Answer), s.fault = false → es.length = s.pend →
    (s.rx = byteAnswers (es ++ [b]) ++ rest → b ≠ 0xAB → b ≠ 0xA8 →
      exec .dec s = .next { s with pend := 0, rx := rest, decoder := none, resCode := 0x06, resData := b.setWidth 32 }) ∧
    (s.rx = byteAnswers (es ++ [0xA8, b]) ++ rest → b = 0 ∨ 5 ≤ b.toNat →
      exec .dec s = .next { s with pend := 0, rx := rest, decoder := none, resCode := 0x16, resData := b.setWidth 32 }) ∧
    (1 ≤ vs.length → vs.length ≤ 4 →
      s.rx = byteAnswers (es ++ [0xA8, BitVec.ofNat 8 vs.length] ++ vs ++ [b]) ++ rest → b ≠ 0xAA →
      exec .dec s = .next { s with pend := 0, rx := rest, decoder := none, resCode := 0x36, resData := b.setWidth 32 })

/-- R177, R202: a timeout ends DEC in the state that was waiting; the discards before it stand. -/
def Obligations.DecReportsTimeouts : Prop :=
  ∀ (s : State) (es vs : List Byte) (n : Nat) (rest : List Answer), s.fault = false →
    (es.length ≤ s.pend → s.rx = byteAnswers es ++ .timeout :: rest →
      exec .dec s = .next { s with pend := s.pend - es.length, rx := rest, decoder := none, resCode := 0x07, resData := 0 }) ∧
    (es.length = s.pend → s.rx = byteAnswers (es ++ [0xA8]) ++ .timeout :: rest →
      exec .dec s = .next { s with pend := 0, rx := rest, decoder := none, resCode := 0x17, resData := 0 }) ∧
    (es.length = s.pend → vs.length < n → n ≤ 4 →
      s.rx = byteAnswers (es ++ [0xA8, BitVec.ofNat 8 n] ++ vs) ++ .timeout :: rest →
      exec .dec s = .next { s with pend := 0, rx := rest, decoder := none, resCode := 0x27, resData := 0 }) ∧
    (es.length = s.pend → 1 ≤ vs.length → vs.length ≤ 4 →
      s.rx = byteAnswers (es ++ [0xA8, BitVec.ofNat 8 vs.length] ++ vs) ++ .timeout :: rest →
      exec .dec s = .next { s with pend := 0, rx := rest, decoder := none, resCode := 0x37, resData := 0 })

/-! ### The whole machine -/

/-- R7, R23, R24, R26, R28: the block's invariant is kept by every step. -/
def Obligations.StepKeepsInvariant : Prop :=
  ∀ s t : State, s.Ok → step s = .next t → t.Ok

/-- R7, R8, R220: the invariant holds right after reset. -/
def Obligations.ResetMeetsInvariant : Prop := State.reset.Ok

/-- R32: the CRC is the fold of the bytes sent since the last CRCCLR or reset, and every step keeps that. -/
def Obligations.CrcAgreesWithHistory : Prop :=
  (State.reset.crc = crcFold 0x0000 History.start.wire) ∧
  ∀ (h : History) (s t : State), s.crc = crcFold 0x0000 h.wire → step s = .next t →
    t.crc = crcFold 0x0000 (h.step s t).wire

/-- R33: the pending-echo count is the bytes counted less the bytes discarded, and every step keeps that. -/
def Obligations.EchoCountAgreesWithHistory : Prop :=
  (State.reset.pend + History.start.discarded = History.start.counted) ∧
  ∀ (h : History) (s t : State), s.pend + h.discarded = h.counted → step s = .next t →
    t.pend + (h.step s t).discarded = (h.step s t).counted

/-- R80, R81, R87, R220 (and I22): the result registers hold a result of the table at reset, and every step keeps that,
be it idle, a command word, or a reset between commands or inside one. A command word leaves such a result whatever was
there before, by a command that may write its code. -/
def Obligations.ResultsAreOfTheTable : Prop :=
  resultListed State.reset.readResult = true ∧
  (∀ s t : State, resultListed s.readResult = true → step s = .next t → resultListed t.readResult = true) ∧
  (∀ (s t : State) (w : Word) (rest : List Input), s.inputs = .command w :: rest → step s = .next t →
    resultListed t.readResult = true) ∧
  ∀ (i : Instr) (s t : State), s.fault = false → exec i s = .next t →
    t.resCode.extractLsb' 0 4 ∈ resultCodes i

/-- R207, R61: no command both sends and receives, and only the receiving commands take answers. -/
def Obligations.NoCommandSendsAndReceives : Prop :=
  ∀ (i : Instr) (s t : State), exec i s = .next t →
    (i.receives = false → t.rx = s.rx) ∧ (i.wireBytes = [] → t.tx = s.tx) ∧ (t.tx = s.tx ∨ t.rx = s.rx)

/-- R31, R58, R220, R221: whatever a step does, a reset included, bytes sent stay sent, the receive stream only loses
answers at its front, and the parameters do not change. -/
def Obligations.StreamsOnlyMoveForward : Prop :=
  ∀ s t : State, step s = .next t → s.tx <+: t.tx ∧ t.rx <:+ s.rx ∧ t.params = s.params

/-- Every command that does not receive completes in every state: by its own rule, or faulted by R193 and R204. That a
transmit command's sends complete is log entry 14 (R55, R64); that the parameters and the inputs are fields it leaves
alone is log entries 1 and 2. -/
def Obligations.OtherCommandsAlwaysComplete : Prop :=
  ∀ (i : Instr) (s : State), i.receives = false → ∃ t, exec i s = .next t ∧ t.rx = s.rx ∧ t.inputs = s.inputs ∧
    t.params = s.params ∧ t.decoder = s.decoder

/-- R65: a run shows its results, what it sent, how many answers it consumed and the final registers, and nothing else:
other answers left unread, another send stream before it and other inputs to come leave its view as it is. -/
def Obligations.RunViewIsOfTheRunAlone : Prop :=
  ∀ (ws : List Word) (s : State) (v : RunView) (unread : List Answer) (before : List Byte) (later : List Input),
    runView ws s = some v →
    runView ws { s with rx := s.rx ++ unread, tx := before, inputs := later } = some v

/-- R59: the commands that may be repeated: run twice, they leave what one run leaves. No other command is so. -/
def Obligations.RepeatableCommands : Prop :=
  ∀ i : Instr, (∀ s t : State, exec i s = .next t → exec i t = .next t) ↔
    i ∈ ([.nop, .crcrd, .stat, .unfclr, .crcclr, .eclr] : List Instr)

/-- R133, R137, R225: in the raw check-CRC exchange the device is sent the snapshot taken after the command sequence, the
CRC is zero after it, and the reply is returned. -/
def Obligations.CheckCrcExchangeLeavesZero : Prop :=
  ∀ (c : ControllerParams) (s : State) (es : List Byte) (b : Byte) (rest : List Answer),
    c.crcChkFramed = false → s.fault = false → s.hasRoom 4 →
    es.length = (if s.ow then s.pend + 4 else s.pend) → s.rx = byteAnswers es ++ .byte b :: rest →
    ∃ t, checkCrcExchange c s = .next t ∧ t.crc = 0x0000 ∧ t.resCode = 0x01 ∧ t.resData = b.setWidth 32 ∧
      t.rx = rest ∧
      t.tx = s.tx ++ [0xA5, c.opcodes.checkCrc,
        (crcFold s.crc [0xA5, c.opcodes.checkCrc]).extractLsb' 0 8,
        (crcFold s.crc [0xA5, c.opcodes.checkCrc]).extractLsb' 8 8]
end

