-- ==== Sys2Proof/Laws/State.lean ====
section
/-! SUPPORT. One lemma per field per update of the state, so that no later proof unfolds a record update. -/

namespace Sys2Proof.Machine

variable (s : State)

section

variable (code : ResultCode) (aux : Nibble) (data : Data)

@[simp] theorem State.result_crc : (s.result code aux data).crc = s.crc := rfl
@[simp] theorem State.result_ow : (s.result code aux data).ow = s.ow := rfl
@[simp] theorem State.result_pend : (s.result code aux data).pend = s.pend := rfl
@[simp] theorem State.result_esc : (s.result code aux data).esc = s.esc := rfl
@[simp] theorem State.result_fault : (s.result code aux data).fault = s.fault := rfl
@[simp] theorem State.result_resCode : (s.result code aux data).resCode = aux ++ code.bits := rfl
@[simp] theorem State.result_resData : (s.result code aux data).resData = data := rfl
@[simp] theorem State.result_decoder : (s.result code aux data).decoder = s.decoder := rfl
@[simp] theorem State.result_params : (s.result code aux data).params = s.params := rfl
@[simp] theorem State.result_tx : (s.result code aux data).tx = s.tx := rfl
@[simp] theorem State.result_rx : (s.result code aux data).rx = s.rx := rfl
@[simp] theorem State.result_inputs : (s.result code aux data).inputs = s.inputs := rfl
@[simp] theorem State.result_pendMax : (s.result code aux data).pendMax = s.pendMax := rfl

end

section

@[simp] theorem State.resultFaulted_crc : (s.resultFaulted).crc = s.crc := rfl
@[simp] theorem State.resultFaulted_ow : (s.resultFaulted).ow = s.ow := rfl
@[simp] theorem State.resultFaulted_pend : (s.resultFaulted).pend = s.pend := rfl
@[simp] theorem State.resultFaulted_esc : (s.resultFaulted).esc = s.esc := rfl
@[simp] theorem State.resultFaulted_fault : (s.resultFaulted).fault = s.fault := rfl
@[simp] theorem State.resultFaulted_resCode : (s.resultFaulted).resCode = 0x0F := rfl
@[simp] theorem State.resultFaulted_resData : (s.resultFaulted).resData = 0 := rfl
@[simp] theorem State.resultFaulted_decoder : (s.resultFaulted).decoder = s.decoder := rfl
@[simp] theorem State.resultFaulted_params : (s.resultFaulted).params = s.params := rfl
@[simp] theorem State.resultFaulted_tx : (s.resultFaulted).tx = s.tx := rfl
@[simp] theorem State.resultFaulted_rx : (s.resultFaulted).rx = s.rx := rfl
@[simp] theorem State.resultFaulted_inputs : (s.resultFaulted).inputs = s.inputs := rfl
@[simp] theorem State.resultFaulted_pendMax : (s.resultFaulted).pendMax = s.pendMax := rfl

end

section

variable (w : Byte)

@[simp] theorem State.pushWire_crc : (s.pushWire w).crc = crcStep s.crc w := rfl
@[simp] theorem State.pushWire_ow : (s.pushWire w).ow = s.ow := rfl
@[simp] theorem State.pushWire_pend : (s.pushWire w).pend = if s.ow then s.pend + 1 else s.pend := rfl
@[simp] theorem State.pushWire_esc : (s.pushWire w).esc = s.esc := rfl
@[simp] theorem State.pushWire_fault : (s.pushWire w).fault = s.fault := rfl
@[simp] theorem State.pushWire_resCode : (s.pushWire w).resCode = s.resCode := rfl
@[simp] theorem State.pushWire_resData : (s.pushWire w).resData = s.resData := rfl
@[simp] theorem State.pushWire_decoder : (s.pushWire w).decoder = s.decoder := rfl
@[simp] theorem State.pushWire_params : (s.pushWire w).params = s.params := rfl
@[simp] theorem State.pushWire_tx : (s.pushWire w).tx = s.tx ++ [w] := rfl
@[simp] theorem State.pushWire_rx : (s.pushWire w).rx = s.rx := rfl
@[simp] theorem State.pushWire_inputs : (s.pushWire w).inputs = s.inputs := rfl
@[simp] theorem State.pushWire_pendMax : (s.pushWire w).pendMax = s.pendMax := rfl

end

section

@[simp] theorem State.raiseFault_crc : (s.raiseFault).crc = s.crc := rfl
@[simp] theorem State.raiseFault_ow : (s.raiseFault).ow = s.ow := rfl
@[simp] theorem State.raiseFault_pend : (s.raiseFault).pend = s.pend := rfl
@[simp] theorem State.raiseFault_esc : (s.raiseFault).esc = s.esc := rfl
@[simp] theorem State.raiseFault_fault : (s.raiseFault).fault = true := rfl
@[simp] theorem State.raiseFault_resCode : (s.raiseFault).resCode = s.resCode := rfl
@[simp] theorem State.raiseFault_resData : (s.raiseFault).resData = s.resData := rfl
@[simp] theorem State.raiseFault_decoder : (s.raiseFault).decoder = s.decoder := rfl
@[simp] theorem State.raiseFault_params : (s.raiseFault).params = s.params := rfl
@[simp] theorem State.raiseFault_tx : (s.raiseFault).tx = s.tx := rfl
@[simp] theorem State.raiseFault_rx : (s.raiseFault).rx = s.rx := rfl
@[simp] theorem State.raiseFault_inputs : (s.raiseFault).inputs = s.inputs := rfl
@[simp] theorem State.raiseFault_pendMax : (s.raiseFault).pendMax = s.pendMax := rfl

end

section

variable (rest : List Answer)

@[simp] theorem State.takeAnswer_crc : (s.takeAnswer rest).crc = s.crc := rfl
@[simp] theorem State.takeAnswer_ow : (s.takeAnswer rest).ow = s.ow := rfl
@[simp] theorem State.takeAnswer_pend : (s.takeAnswer rest).pend = s.pend := rfl
@[simp] theorem State.takeAnswer_esc : (s.takeAnswer rest).esc = s.esc := rfl
@[simp] theorem State.takeAnswer_fault : (s.takeAnswer rest).fault = s.fault := rfl
@[simp] theorem State.takeAnswer_resCode : (s.takeAnswer rest).resCode = s.resCode := rfl
@[simp] theorem State.takeAnswer_resData : (s.takeAnswer rest).resData = s.resData := rfl
@[simp] theorem State.takeAnswer_decoder : (s.takeAnswer rest).decoder = s.decoder := rfl
@[simp] theorem State.takeAnswer_params : (s.takeAnswer rest).params = s.params := rfl
@[simp] theorem State.takeAnswer_tx : (s.takeAnswer rest).tx = s.tx := rfl
@[simp] theorem State.takeAnswer_rx : (s.takeAnswer rest).rx = rest := rfl
@[simp] theorem State.takeAnswer_inputs : (s.takeAnswer rest).inputs = s.inputs := rfl
@[simp] theorem State.takeAnswer_pendMax : (s.takeAnswer rest).pendMax = s.pendMax := rfl

end

section

variable (rest : List Answer)

@[simp] theorem State.discardEcho_crc : (s.discardEcho rest).crc = s.crc := rfl
@[simp] theorem State.discardEcho_ow : (s.discardEcho rest).ow = s.ow := rfl
@[simp] theorem State.discardEcho_pend : (s.discardEcho rest).pend = s.pend - 1 := rfl
@[simp] theorem State.discardEcho_esc : (s.discardEcho rest).esc = s.esc := rfl
@[simp] theorem State.discardEcho_fault : (s.discardEcho rest).fault = s.fault := rfl
@[simp] theorem State.discardEcho_resCode : (s.discardEcho rest).resCode = s.resCode := rfl
@[simp] theorem State.discardEcho_resData : (s.discardEcho rest).resData = s.resData := rfl
@[simp] theorem State.discardEcho_decoder : (s.discardEcho rest).decoder = s.decoder := rfl
@[simp] theorem State.discardEcho_params : (s.discardEcho rest).params = s.params := rfl
@[simp] theorem State.discardEcho_tx : (s.discardEcho rest).tx = s.tx := rfl
@[simp] theorem State.discardEcho_rx : (s.discardEcho rest).rx = rest := rfl
@[simp] theorem State.discardEcho_inputs : (s.discardEcho rest).inputs = s.inputs := rfl
@[simp] theorem State.discardEcho_pendMax : (s.discardEcho rest).pendMax = s.pendMax := rfl

end

section

@[simp] theorem State.clearCrc_crc : (s.clearCrc).crc = 0x0000 := rfl
@[simp] theorem State.clearCrc_ow : (s.clearCrc).ow = s.ow := rfl
@[simp] theorem State.clearCrc_pend : (s.clearCrc).pend = s.pend := rfl
@[simp] theorem State.clearCrc_esc : (s.clearCrc).esc = s.esc := rfl
@[simp] theorem State.clearCrc_fault : (s.clearCrc).fault = s.fault := rfl
@[simp] theorem State.clearCrc_resCode : (s.clearCrc).resCode = s.resCode := rfl
@[simp] theorem State.clearCrc_resData : (s.clearCrc).resData = s.resData := rfl
@[simp] theorem State.clearCrc_decoder : (s.clearCrc).decoder = s.decoder := rfl
@[simp] theorem State.clearCrc_params : (s.clearCrc).params = s.params := rfl
@[simp] theorem State.clearCrc_tx : (s.clearCrc).tx = s.tx := rfl
@[simp] theorem State.clearCrc_rx : (s.clearCrc).rx = s.rx := rfl
@[simp] theorem State.clearCrc_inputs : (s.clearCrc).inputs = s.inputs := rfl
@[simp] theorem State.clearCrc_pendMax : (s.clearCrc).pendMax = s.pendMax := rfl

end

section

variable (e : Bool)

@[simp] theorem State.setEsc_crc : (s.setEsc e).crc = s.crc := rfl
@[simp] theorem State.setEsc_ow : (s.setEsc e).ow = s.ow := rfl
@[simp] theorem State.setEsc_pend : (s.setEsc e).pend = s.pend := rfl
@[simp] theorem State.setEsc_esc : (s.setEsc e).esc = e := rfl
@[simp] theorem State.setEsc_fault : (s.setEsc e).fault = s.fault := rfl
@[simp] theorem State.setEsc_resCode : (s.setEsc e).resCode = s.resCode := rfl
@[simp] theorem State.setEsc_resData : (s.setEsc e).resData = s.resData := rfl
@[simp] theorem State.setEsc_decoder : (s.setEsc e).decoder = s.decoder := rfl
@[simp] theorem State.setEsc_params : (s.setEsc e).params = s.params := rfl
@[simp] theorem State.setEsc_tx : (s.setEsc e).tx = s.tx := rfl
@[simp] theorem State.setEsc_rx : (s.setEsc e).rx = s.rx := rfl
@[simp] theorem State.setEsc_inputs : (s.setEsc e).inputs = s.inputs := rfl
@[simp] theorem State.setEsc_pendMax : (s.setEsc e).pendMax = s.pendMax := rfl

end

section

@[simp] theorem State.setOneWire_crc : (s.setOneWire).crc = s.crc := rfl
@[simp] theorem State.setOneWire_ow : (s.setOneWire).ow = true := rfl
@[simp] theorem State.setOneWire_pend : (s.setOneWire).pend = s.pend := rfl
@[simp] theorem State.setOneWire_esc : (s.setOneWire).esc = s.esc := rfl
@[simp] theorem State.setOneWire_fault : (s.setOneWire).fault = s.fault := rfl
@[simp] theorem State.setOneWire_resCode : (s.setOneWire).resCode = s.resCode := rfl
@[simp] theorem State.setOneWire_resData : (s.setOneWire).resData = s.resData := rfl
@[simp] theorem State.setOneWire_decoder : (s.setOneWire).decoder = s.decoder := rfl
@[simp] theorem State.setOneWire_params : (s.setOneWire).params = s.params := rfl
@[simp] theorem State.setOneWire_tx : (s.setOneWire).tx = s.tx := rfl
@[simp] theorem State.setOneWire_rx : (s.setOneWire).rx = s.rx := rfl
@[simp] theorem State.setOneWire_inputs : (s.setOneWire).inputs = s.inputs := rfl
@[simp] theorem State.setOneWire_pendMax : (s.setOneWire).pendMax = s.pendMax := rfl

end

section

@[simp] theorem State.clearEcho_crc : (s.clearEcho).crc = s.crc := rfl
@[simp] theorem State.clearEcho_ow : (s.clearEcho).ow = false := rfl
@[simp] theorem State.clearEcho_pend : (s.clearEcho).pend = 0 := rfl
@[simp] theorem State.clearEcho_esc : (s.clearEcho).esc = s.esc := rfl
@[simp] theorem State.clearEcho_fault : (s.clearEcho).fault = s.fault := rfl
@[simp] theorem State.clearEcho_resCode : (s.clearEcho).resCode = s.resCode := rfl
@[simp] theorem State.clearEcho_resData : (s.clearEcho).resData = s.resData := rfl
@[simp] theorem State.clearEcho_decoder : (s.clearEcho).decoder = s.decoder := rfl
@[simp] theorem State.clearEcho_params : (s.clearEcho).params = s.params := rfl
@[simp] theorem State.clearEcho_tx : (s.clearEcho).tx = s.tx := rfl
@[simp] theorem State.clearEcho_rx : (s.clearEcho).rx = s.rx := rfl
@[simp] theorem State.clearEcho_inputs : (s.clearEcho).inputs = s.inputs := rfl
@[simp] theorem State.clearEcho_pendMax : (s.clearEcho).pendMax = s.pendMax := rfl

end

section

variable (d : Decoder)

@[simp] theorem State.setDecoder_crc : (s.setDecoder d).crc = s.crc := rfl
@[simp] theorem State.setDecoder_ow : (s.setDecoder d).ow = s.ow := rfl
@[simp] theorem State.setDecoder_pend : (s.setDecoder d).pend = s.pend := rfl
@[simp] theorem State.setDecoder_esc : (s.setDecoder d).esc = s.esc := rfl
@[simp] theorem State.setDecoder_fault : (s.setDecoder d).fault = s.fault := rfl
@[simp] theorem State.setDecoder_resCode : (s.setDecoder d).resCode = s.resCode := rfl
@[simp] theorem State.setDecoder_resData : (s.setDecoder d).resData = s.resData := rfl
@[simp] theorem State.setDecoder_decoder : (s.setDecoder d).decoder = some d := rfl
@[simp] theorem State.setDecoder_params : (s.setDecoder d).params = s.params := rfl
@[simp] theorem State.setDecoder_tx : (s.setDecoder d).tx = s.tx := rfl
@[simp] theorem State.setDecoder_rx : (s.setDecoder d).rx = s.rx := rfl
@[simp] theorem State.setDecoder_inputs : (s.setDecoder d).inputs = s.inputs := rfl
@[simp] theorem State.setDecoder_pendMax : (s.setDecoder d).pendMax = s.pendMax := rfl

end

section

@[simp] theorem State.endDecoder_crc : (s.endDecoder).crc = s.crc := rfl
@[simp] theorem State.endDecoder_ow : (s.endDecoder).ow = s.ow := rfl
@[simp] theorem State.endDecoder_pend : (s.endDecoder).pend = s.pend := rfl
@[simp] theorem State.endDecoder_esc : (s.endDecoder).esc = s.esc := rfl
@[simp] theorem State.endDecoder_fault : (s.endDecoder).fault = s.fault := rfl
@[simp] theorem State.endDecoder_resCode : (s.endDecoder).resCode = s.resCode := rfl
@[simp] theorem State.endDecoder_resData : (s.endDecoder).resData = s.resData := rfl
@[simp] theorem State.endDecoder_decoder : (s.endDecoder).decoder = none := rfl
@[simp] theorem State.endDecoder_params : (s.endDecoder).params = s.params := rfl
@[simp] theorem State.endDecoder_tx : (s.endDecoder).tx = s.tx := rfl
@[simp] theorem State.endDecoder_rx : (s.endDecoder).rx = s.rx := rfl
@[simp] theorem State.endDecoder_inputs : (s.endDecoder).inputs = s.inputs := rfl
@[simp] theorem State.endDecoder_pendMax : (s.endDecoder).pendMax = s.pendMax := rfl

end

section

variable (rest : List Input)

@[simp] theorem State.withInputs_crc : (s.withInputs rest).crc = s.crc := rfl
@[simp] theorem State.withInputs_ow : (s.withInputs rest).ow = s.ow := rfl
@[simp] theorem State.withInputs_pend : (s.withInputs rest).pend = s.pend := rfl
@[simp] theorem State.withInputs_esc : (s.withInputs rest).esc = s.esc := rfl
@[simp] theorem State.withInputs_fault : (s.withInputs rest).fault = s.fault := rfl
@[simp] theorem State.withInputs_resCode : (s.withInputs rest).resCode = s.resCode := rfl
@[simp] theorem State.withInputs_resData : (s.withInputs rest).resData = s.resData := rfl
@[simp] theorem State.withInputs_decoder : (s.withInputs rest).decoder = s.decoder := rfl
@[simp] theorem State.withInputs_params : (s.withInputs rest).params = s.params := rfl
@[simp] theorem State.withInputs_tx : (s.withInputs rest).tx = s.tx := rfl
@[simp] theorem State.withInputs_rx : (s.withInputs rest).rx = s.rx := rfl
@[simp] theorem State.withInputs_inputs : (s.withInputs rest).inputs = rest := rfl
@[simp] theorem State.withInputs_pendMax : (s.withInputs rest).pendMax = s.pendMax := rfl

end

section

@[simp] theorem State.resetInput_crc : (s.resetInput).crc = 0x0000 := rfl
@[simp] theorem State.resetInput_ow : (s.resetInput).ow = false := rfl
@[simp] theorem State.resetInput_pend : (s.resetInput).pend = 0 := rfl
@[simp] theorem State.resetInput_esc : (s.resetInput).esc = false := rfl
@[simp] theorem State.resetInput_fault : (s.resetInput).fault = false := rfl
@[simp] theorem State.resetInput_resCode : (s.resetInput).resCode = 0x00 := rfl
@[simp] theorem State.resetInput_resData : (s.resetInput).resData = 0 := rfl
@[simp] theorem State.resetInput_decoder : (s.resetInput).decoder = none := rfl
@[simp] theorem State.resetInput_params : (s.resetInput).params = s.params := rfl
@[simp] theorem State.resetInput_tx : (s.resetInput).tx = s.tx := rfl
@[simp] theorem State.resetInput_rx : (s.resetInput).rx = s.rx := rfl
@[simp] theorem State.resetInput_inputs : (s.resetInput).inputs = s.inputs := rfl
@[simp] theorem State.resetInput_pendMax : (s.resetInput).pendMax = s.pendMax := rfl

end

section

variable (ws : List Byte)

@[simp] theorem State.afterSending_crc : (s.afterSending ws).crc = crcFold s.crc ws := rfl
@[simp] theorem State.afterSending_ow : (s.afterSending ws).ow = s.ow := rfl
@[simp] theorem State.afterSending_pend : (s.afterSending ws).pend = if s.ow then s.pend + ws.length else s.pend := rfl
@[simp] theorem State.afterSending_esc : (s.afterSending ws).esc = s.esc := rfl
@[simp] theorem State.afterSending_fault : (s.afterSending ws).fault = s.fault := rfl
@[simp] theorem State.afterSending_resCode : (s.afterSending ws).resCode = s.resCode := rfl
@[simp] theorem State.afterSending_resData : (s.afterSending ws).resData = s.resData := rfl
@[simp] theorem State.afterSending_decoder : (s.afterSending ws).decoder = s.decoder := rfl
@[simp] theorem State.afterSending_params : (s.afterSending ws).params = s.params := rfl
@[simp] theorem State.afterSending_tx : (s.afterSending ws).tx = s.tx ++ ws := rfl
@[simp] theorem State.afterSending_rx : (s.afterSending ws).rx = s.rx := rfl
@[simp] theorem State.afterSending_inputs : (s.afterSending ws).inputs = s.inputs := rfl
@[simp] theorem State.afterSending_pendMax : (s.afterSending ws).pendMax = s.pendMax := rfl

end

/-! ### The registers alone (R20) -/

/-- The streams and the inputs are no registers. -/
@[simp] theorem State.registers_environment (s : State) (tx : List Byte) (rx : List Answer) (inputs : List Input) :
    ({ s with tx := tx, rx := rx, inputs := inputs } : State).registers = s.registers := rfl

@[simp] theorem State.registers_result (s : State) :
    (s.registers.resCode, s.registers.resData) = s.readResult := rfl

end Sys2Proof.Machine
end

