-- ==== Sys2Proof/Laws/Crc.lean ====
section
/-! SUPPORT. The CRC's shift is linear, moves a zero low byte out unchanged, and is the mirror image of the most
significant bit first shift (spec/41_crc.md R131, R133). -/

namespace Sys2Proof.Machine

theorem crcShift_xor (a b : Crc) : crcShift (a ^^^ b) = crcShift a ^^^ crcShift b := by
  unfold crcShift
  rw [BitVec.getLsbD_xor, BitVec.ushiftRight_xor_distrib]
  cases a.getLsbD 0 <;> cases b.getLsbD 0 <;> simp <;> ac_nf <;> simp

theorem crcShifts_xor (n : Nat) (a b : Crc) : crcShifts n (a ^^^ b) = crcShifts n a ^^^ crcShifts n b := by
  induction n generalizing a b with
  | zero => rfl
  | succ n ih => simp [crcShifts, crcShift_xor, ih]

/-- Eight shifts of a value whose low byte is zero are plain shifts. -/
theorem crcShifts_high : ∀ h : Byte, crcShifts 8 (h.setWidth 16 <<< 8) = h.setWidth 16 := by decide

/-- A CRC is its high byte moved up, and its low byte. -/
theorem crc_split (c : Crc) :
    c = ((c >>> 8).setWidth 8).setWidth 16 <<< 8 ^^^ (c.setWidth 8).setWidth 16 := by
  apply BitVec.eq_of_getLsbD_eq; intro k hk; interval_cases k <;> simp

theorem crc_high (c : Crc) : ((c >>> 8).setWidth 8).setWidth 16 = c >>> 8 := by
  apply BitVec.eq_of_getLsbD_eq; intro k hk; interval_cases k <;> simp

/-! ### Bit reversal -/

theorem reverse16 (x : BitVec 16) (k : Nat) (h : k < 16) : x.reverse.getLsbD k = x.getLsbD (15 - k) := by
  rw [BitVec.getLsbD_reverse, BitVec.getMsbD_eq_getLsbD]; simp [h]

theorem reverse8 (x : BitVec 8) (k : Nat) (h : k < 8) : x.reverse.getLsbD k = x.getLsbD (7 - k) := by
  rw [BitVec.getLsbD_reverse, BitVec.getMsbD_eq_getLsbD]; simp [h]

theorem reverse16_xor (a b : BitVec 16) : (a ^^^ b).reverse = a.reverse ^^^ b.reverse := by
  apply BitVec.eq_of_getLsbD_eq
  intro k hk
  rw [BitVec.getLsbD_xor, reverse16 _ _ hk, reverse16 _ _ hk, reverse16 _ _ hk, BitVec.getLsbD_xor]

theorem reverse16_shift (t : BitVec 16) : (t >>> 1).reverse = t.reverse <<< 1 := by
  apply BitVec.eq_of_getLsbD_eq
  intro k hk
  rw [reverse16 _ _ hk, BitVec.getLsbD_shiftLeft, BitVec.getLsbD_ushiftRight]
  by_cases h0 : k < 1
  · obtain rfl : k = 0 := by omega
    simp
  · rw [reverse16 _ _ (by omega)]; simp [h0, hk]; congr 1; omega

theorem reverse16_reverse (x : BitVec 16) : x.reverse.reverse = x := by
  apply BitVec.eq_of_getLsbD_eq
  intro k hk
  rw [reverse16 _ _ hk, reverse16 _ _ (by omega)]; congr 1; omega

theorem reverse16_byte (b : BitVec 8) : (b.setWidth 16).reverse = b.reverse.setWidth 16 <<< 8 := by
  apply BitVec.eq_of_getLsbD_eq
  intro k hk
  rw [reverse16 _ _ hk, BitVec.getLsbD_shiftLeft, BitVec.getLsbD_setWidth, BitVec.getLsbD_setWidth]
  by_cases h0 : k < 8
  · simp [h0]; intro _; apply BitVec.getLsbD_of_ge; omega
  · have h1 : 15 - k = 7 - (k - 8) := by omega
    have h2 : 7 - (k - 8) < 16 := by omega
    have h3 : k - 8 < 16 := by omega
    have h4 : k - 8 < 8 := by omega
    simp [h0, hk, h1, h2, h3, reverse8 _ _ h4]

/-- One iteration, seen from the other end of the register. -/
theorem crcShift_reverse (t : Crc) :
    (crcShift t).reverse = if t.reverse.msb then (t.reverse <<< 1) ^^^ 0x8005 else t.reverse <<< 1 := by
  have hm : t.reverse.msb = t.getLsbD 0 := by rw [BitVec.msb_reverse]
  have hc : (40961#16).reverse = 0x8005 := by decide
  simp only [hm, crcShift]
  cases t.getLsbD 0
  · simp [reverse16_shift]
  · simp [reverse16_shift, reverse16_xor, hc]

end Sys2Proof.Machine
end

