-- ==== Sys2Proof/Laws/Decode.lean ====
section
/-! SUPPORT. What the decoder reads, field by field (spec/30_encoding.md R70 to R73). -/

namespace Sys2Proof

/-- A word is its three fields. -/
def wordOf (op rsv : Nibble) (arg : Byte) : Word :=
  op.setWidth 16 <<< 12 ||| rsv.setWidth 16 <<< 8 ||| arg.setWidth 16

@[simp] theorem fieldOp_wordOf (op rsv : Nibble) (arg : Byte) : fieldOp (wordOf op rsv arg) = op := by
  apply BitVec.eq_of_getLsbD_eq
  intro k hk
  interval_cases k <;> simp [fieldOp, wordOf]

@[simp] theorem fieldRsv_wordOf (op rsv : Nibble) (arg : Byte) : fieldRsv (wordOf op rsv arg) = rsv := by
  apply BitVec.eq_of_getLsbD_eq
  intro k hk
  interval_cases k <;> simp [fieldRsv, wordOf]

@[simp] theorem fieldArg_wordOf (op rsv : Nibble) (arg : Byte) : fieldArg (wordOf op rsv arg) = arg := by
  apply BitVec.eq_of_getLsbD_eq
  intro k hk
  interval_cases k <;> simp [fieldArg, wordOf]

theorem wordOf_fields (w : Word) : wordOf (fieldOp w) (fieldRsv w) (fieldArg w) = w := by
  apply BitVec.eq_of_getLsbD_eq
  intro k hk
  interval_cases k <;> simp [fieldOp, fieldRsv, fieldArg, wordOf]

theorem encode_eq_wordOf (i : Instr) : encode i = wordOf i.op 0 i.arg := by
  simp [encode, wordOf]

/-- A claim about every nibble, value by value. -/
theorem nibble_cases {P : Nibble → Prop} (h : ∀ n < 16, P (BitVec.ofNat 4 n)) (op : Nibble) : P op := by
  have := h op.toNat op.isLt
  simpa using this

theorem noOperand_ok_iff (j i : Instr) (arg : Byte) : noOperand j arg = .ok i ↔ arg = 0 ∧ j = i := by
  unfold noOperand
  split
  · rename_i h; simp [h]
  · rename_i h
    constructor
    · intro h'; cases h'
    · rintro ⟨h', -⟩; exact absurd h' h

theorem decodeOp_ok_iff (op : Nibble) (arg : Byte) (i : Instr) :
    decodeOp op arg = .ok i ↔ op = i.op ∧ arg = i.arg := by
  constructor
  · induction op using nibble_cases with
    | h n hn =>
      interval_cases n <;> intro h
      all_goals first
        | (obtain ⟨rfl, rfl⟩ := (noOperand_ok_iff _ _ _).1 h; exact ⟨rfl, rfl⟩)
        | (cases h; exact ⟨rfl, rfl⟩)
        | cases h
  · rintro ⟨rfl, rfl⟩
    cases i <;> rfl

/-- A word decodes to a command exactly where its fields are the command's (R72, R73). -/
theorem decodeWord_ok_iff (w : Word) (i : Instr) :
    decodeWord w = .ok i ↔ fieldOp w = i.op ∧ fieldRsv w = 0 ∧ fieldArg w = i.arg := by
  have hop : i.op.toNat ≤ 0xD := by cases i <;> simp [Instr.op]
  unfold decodeWord
  split
  · rename_i h
    constructor
    · intro h'; cases h'
    · rintro ⟨h1, -, -⟩; rw [h1] at h; omega
  · split
    · rename_i h
      constructor
      · intro h'; cases h'
      · rintro ⟨-, h2, -⟩; exact absurd h2 h
    · rename_i h
      rw [decodeOp_ok_iff]
      constructor
      · rintro ⟨h1, h2⟩; exact ⟨h1, not_not.1 h, h2⟩
      · rintro ⟨h1, -, h2⟩; exact ⟨h1, h2⟩

end Sys2Proof
end

