-- ==== Sys2Proof/Laws/Ops.lean ====
section
/-! SUPPORT. One spec lemma per shared operation: what `unlessFaulted`, `wireSendAll`, `transmit`, `recvFrom` and
`receiveOne` can do. Later proofs cite these and do not unfold the operations. -/

namespace Sys2Proof.Machine

/-! ### The fault rule -/

theorem unlessFaulted_faulted {s : State} {run : State → Out} (h : s.fault = true) :
    unlessFaulted s run = .next s.resultFaulted := by simp [unlessFaulted, h]

theorem unlessFaulted_running {s : State} {run : State → Out} (h : s.fault = false) :
    unlessFaulted s run = run s := by simp [unlessFaulted, h]

/-- A command under the fault rule either left only the FAULTED result, or ran. -/
theorem unlessFaulted_cases {s : State} {run : State → Out} {o : Out} (h : unlessFaulted s run = o) :
    (s.fault = true ∧ o = .next s.resultFaulted) ∨ (s.fault = false ∧ run s = o) := by
  cases hf : s.fault
  · exact .inr ⟨rfl, by rw [unlessFaulted_running hf] at h; exact h⟩
  · exact .inl ⟨rfl, by rw [unlessFaulted_faulted hf] at h; exact h.symm⟩

/-! ### The CRC -/

@[simp] theorem crcFold_nil (c : Crc) : crcFold c [] = c := rfl

@[simp] theorem crcFold_cons (c : Crc) (b : Byte) (bs : List Byte) :
    crcFold c (b :: bs) = crcFold (crcStep c b) bs := rfl

theorem crcFold_append (c : Crc) (as bs : List Byte) :
    crcFold c (as ++ bs) = crcFold (crcFold c as) bs := by
  induction as generalizing c with
  | nil => rfl
  | cons a as ih => exact ih _

/-! ### Sending -/

theorem State.afterSending_nil (s : State) : s.afterSending [] = s := by
  cases s; simp [State.afterSending]

theorem State.afterSending_cons (s : State) (w : Byte) (ws : List Byte) :
    s.afterSending (w :: ws) = (s.pushWire w).afterSending ws := by
  cases s with
  | mk crc ow pend =>
    cases ow <;> simp [State.afterSending, State.pushWire, Nat.add_assoc, Nat.add_comm 1]

theorem sendOverflows_iff (s : State) : s.sendOverflows = true ↔ s.ow = true ∧ s.pend = s.pendMax := by
  simp [State.sendOverflows]

theorem wireSend_overflows {s : State} (how : s.ow = true) (hp : s.pend = s.pendMax) (w : Byte) :
    wireSend w s = .aborted s.raiseFault := if_pos ((sendOverflows_iff s).2 ⟨how, hp⟩)

theorem wireSend_fits {s : State} (h : ¬(s.ow = true ∧ s.pend = s.pendMax)) (w : Byte) :
    wireSend w s = .sent (s.pushWire w) := if_neg fun h' => h ((sendOverflows_iff s).1 h')

/-- Everything `wireSendAll` can do: it sends all its bytes, and then they fitted if the counter was within its bound;
or an initial part, after which the counter is full. -/
theorem wireSendAll_cases (ws : List Byte) (s : State) :
    (wireSendAll ws s = .sent (s.afterSending ws) ∧ (s.pend ≤ s.pendMax → s.hasRoom ws.length)) ∨
    ∃ before w after, ws = before ++ w :: after ∧ s.ow = true ∧ s.pend + before.length = s.pendMax ∧
      wireSendAll ws s = .aborted (s.afterSending before).raiseFault := by
  induction ws generalizing s with
  | nil => exact .inl ⟨by rw [State.afterSending_nil]; rfl, fun h _ => h⟩
  | cons w ws ih =>
    cases ho : s.sendOverflows
    · have hstep : wireSendAll (w :: ws) s = wireSendAll ws (s.pushWire w) := by
        simp [wireSendAll, wireSend, ho]
      rw [hstep, State.afterSending_cons]
      rcases ih (s.pushWire w) with ⟨h, hroom⟩ | ⟨before, w', after, hws, how, hp, h⟩
      · refine .inl ⟨h, fun hle how => ?_⟩
        have hne : s.pend ≠ s.pendMax := fun heq => by
          rw [(sendOverflows_iff s).2 ⟨how, heq⟩] at ho; cases ho
        have := hroom (by simp [how]; omega) how
        simp [how] at this
        simp; omega
      · refine .inr ⟨w :: before, w', after, by rw [hws]; rfl, how, ?_, ?_⟩
        · simp at how hp; rw [how] at hp; simp at hp; simp; omega
        · rw [State.afterSending_cons]; exact h
    · have ho' := ho
      simp [State.sendOverflows] at ho'
      refine .inr ⟨[], w, ws, rfl, ho'.1, by simpa using ho'.2, ?_⟩
      rw [State.afterSending_nil]; simp [wireSendAll, wireSend, ho]

/-- With room for all of them, all the bytes go out. -/
theorem wireSendAll_room {ws : List Byte} {s : State} (h : s.hasRoom ws.length) :
    wireSendAll ws s = .sent (s.afterSending ws) := by
  rcases wireSendAll_cases ws s with h' | ⟨before, w, after, hws, how, hp, -⟩
  · exact h'.1
  · have := h how
    rw [hws] at this; simp at this; omega

/-- The first byte that does not fit aborts the command; those before it stand. -/
theorem wireSendAll_overflow {before after : List Byte} {w : Byte} {s : State} (how : s.ow = true)
    (hp : s.pend + before.length = s.pendMax) :
    wireSendAll (before ++ w :: after) s = .aborted (s.afterSending before).raiseFault := by
  induction before generalizing s with
  | nil => simp [wireSendAll, wireSend, State.sendOverflows, how, State.afterSending_nil] at hp ⊢; simp [hp]
  | cons b bs ih =>
    have hno : s.sendOverflows = false := by simp [State.sendOverflows]; intro _; simp at hp; omega
    have := ih (s := s.pushWire b) how (by simp [how] at hp ⊢; omega)
    rw [State.afterSending_cons, ← this]
    simp [wireSendAll, wireSend, hno]

/-- Everything a transmit command can do while the block is not faulted. -/
theorem transmit_cases (ws : List Byte) (s : State) :
    (transmit ws s = .next ((s.afterSending ws).result .ok 0 0) ∧ (s.pend ≤ s.pendMax → s.hasRoom ws.length)) ∨
    ∃ before w after, ws = before ++ w :: after ∧ s.ow = true ∧ s.pend + before.length = s.pendMax ∧
      transmit ws s = .next (s.afterSending before).raiseFault.resultFaulted := by
  rcases wireSendAll_cases ws s with ⟨h, hroom⟩ | ⟨before, w, after, hws, how, hp, h⟩
  · exact .inl ⟨by simp [transmit, h], hroom⟩
  · exact .inr ⟨before, w, after, hws, how, hp, by simp [transmit, h]⟩

/-! ### Receiving -/

@[simp] theorem byteAnswers_nil : byteAnswers [] = [] := rfl

@[simp] theorem byteAnswers_cons (b : Byte) (bs : List Byte) :
    byteAnswers (b :: bs) = .byte b :: byteAnswers bs := rfl

@[simp] theorem byteAnswers_append (as bs : List Byte) :
    byteAnswers (as ++ bs) = byteAnswers as ++ byteAnswers bs := List.map_append

@[simp] theorem byteAnswers_length (bs : List Byte) : (byteAnswers bs).length = bs.length := List.length_map _

theorem timeout_not_mem_byteAnswers (bs : List Byte) : Answer.timeout ∉ byteAnswers bs := by
  simp [byteAnswers]

/-- The filter reads the stream it is given and not the state's field. -/
theorem recvFrom_ignores_rx (rx r : List Answer) (s : State) :
    recvFrom rx { s with rx := r } = recvFrom rx s := by
  induction rx generalizing s with
  | nil => rfl
  | cons a rest ih => cases a <;> rfl

/-- Pending echoes are dropped one by one, whatever they are (R54, R151). -/
theorem recvFrom_echoes (es : List Byte) (rest : List Answer) (s : State) (h : es.length ≤ s.pend) :
    recvFrom (byteAnswers es ++ rest) s = recvFrom rest { s with pend := s.pend - es.length } := by
  induction es generalizing s with
  | nil => simp
  | cons e es ih =>
    simp at h
    have hp : 0 < s.pend := by omega
    have := ih (s.discardEcho (byteAnswers es ++ rest)) (by simp; omega)
    simp [recvFrom, hp, this]
    rw [← recvFrom_ignores_rx rest s.rx]
    congr 2; simp; omega

/-- A surfaced byte: the one after `pend` discarded ones. -/
theorem recvFrom_byte (es : List Byte) (b : Byte) (rest : List Answer) (s : State) (h : es.length = s.pend) :
    recvFrom (byteAnswers es ++ .byte b :: rest) s = .byte b { s with pend := 0, rx := rest } := by
  rw [recvFrom_echoes _ _ _ (by omega)]
  simp [recvFrom, h, State.takeAnswer]

/-- A timeout: the discards before it stand. -/
theorem recvFrom_timeout (es : List Byte) (rest : List Answer) (s : State) (h : es.length ≤ s.pend) :
    recvFrom (byteAnswers es ++ .timeout :: rest) s =
      .timeout { s with pend := s.pend - es.length, rx := rest } := by
  rw [recvFrom_echoes _ _ _ h]; rfl

/-- The stream runs out before a byte surfaces. -/
theorem recvFrom_unanswered (es : List Byte) (s : State) (h : es.length ≤ s.pend) :
    recvFrom (byteAnswers es) s = .unanswered := by
  have := recvFrom_echoes es [] s h
  rw [List.append_nil] at this
  rw [this]; rfl

/-- Every receive stream has one of the three forms the filter tells apart. -/
theorem stream_cases (rx : List Answer) (n : Nat) :
    (∃ es b rest, rx = byteAnswers es ++ .byte b :: rest ∧ es.length = n) ∨
    (∃ es rest, rx = byteAnswers es ++ .timeout :: rest ∧ es.length ≤ n) ∨
    ∃ es, rx = byteAnswers es ∧ es.length ≤ n := by
  induction rx generalizing n with
  | nil => exact .inr (.inr ⟨[], rfl, by simp⟩)
  | cons a rx ih =>
    cases a with
    | timeout => exact .inr (.inl ⟨[], rx, rfl, by simp⟩)
    | byte e =>
      cases n with
      | zero => exact .inl ⟨[], e, rx, rfl, rfl⟩
      | succ n =>
        rcases ih n with ⟨es, b, rest, h, hl⟩ | ⟨es, rest, h, hl⟩ | ⟨es, h, hl⟩
        · exact .inl ⟨e :: es, b, rest, by rw [h]; rfl, by simp [hl]⟩
        · exact .inr (.inl ⟨e :: es, rest, by rw [h]; rfl, by simp; omega⟩)
        · exact .inr (.inr ⟨e :: es, by rw [h]; rfl, by simp; omega⟩)

/-- Everything `RecvSurfaced` can do. -/
theorem recvSurfaced_cases (s : State) :
    (∃ es b rest, s.rx = byteAnswers es ++ .byte b :: rest ∧ es.length = s.pend ∧
      recvSurfaced s = .byte b { s with pend := 0, rx := rest }) ∨
    (∃ es rest, s.rx = byteAnswers es ++ .timeout :: rest ∧ es.length ≤ s.pend ∧
      recvSurfaced s = .timeout { s with pend := s.pend - es.length, rx := rest }) ∨
    ∃ es, s.rx = byteAnswers es ∧ es.length ≤ s.pend ∧ recvSurfaced s = .unanswered := by
  rcases stream_cases s.rx s.pend with ⟨es, b, rest, h, hl⟩ | ⟨es, rest, h, hl⟩ | ⟨es, h, hl⟩
  · exact .inl ⟨es, b, rest, h, hl, by rw [recvSurfaced, h, recvFrom_byte _ _ _ _ hl]⟩
  · exact .inr (.inl ⟨es, rest, h, hl, by rw [recvSurfaced, h, recvFrom_timeout _ _ _ hl]⟩)
  · exact .inr (.inr ⟨es, h, hl, by rw [recvSurfaced, h, recvFrom_unanswered _ _ hl]⟩)

end Sys2Proof.Machine
end

