-- ==== Sys2Proof/Laws/Decoder.lean ====
section
/-! SUPPORT. The response decoder's loop: one iteration on each form of the receive stream, and everything DEC can do. -/

namespace Sys2Proof.Machine

/-- DEC from the registers `d`, with fuel for every answer there is. -/
def decRun (d : Decoder) (s : State) : Out := decLoop s.rx.length d s

/-- The loop overwrites the decoder's registers before it reads them. -/
theorem decLoop_ignores_decoder (fuel : Nat) (d : Decoder) (s : State) (o : Option Decoder) :
    decLoop fuel d { s with decoder := o } = decLoop fuel d s := by
  cases fuel <;> rfl

theorem decLoop_surfaced {fuel : Nat} {d : Decoder} {s : State} {es : List Byte} {b : Byte} {rest : List Answer}
    (hrx : s.rx = byteAnswers es ++ .byte b :: rest) (hl : es.length = s.pend) :
    decLoop (fuel + 1) d s =
      match decTransition b d with
      | .goOn d' => decLoop fuel d' { s with pend := 0, rx := rest }
      | .ends code aux data => .next ({ s with pend := 0, rx := rest, decoder := none }.result code aux data) := by
  have h : recvSurfaced (s.setDecoder d) = .byte b { s with pend := 0, rx := rest, decoder := some d } := by
    rw [recvSurfaced, State.setDecoder_rx, hrx, recvFrom_byte _ _ _ _ (by simpa using hl)]; rfl
  simp only [decLoop, h]
  cases decTransition b d with
  | goOn d' => exact decLoop_ignores_decoder fuel d' { s with pend := 0, rx := rest } (some d)
  | ends code aux data => rfl

theorem decLoop_timeout {fuel : Nat} {d : Decoder} {s : State} {es : List Byte} {rest : List Answer}
    (hrx : s.rx = byteAnswers es ++ .timeout :: rest) (hl : es.length ≤ s.pend) :
    decLoop (fuel + 1) d s =
      .next ({ s with pend := s.pend - es.length, rx := rest, decoder := none }.result .timeout d.dst.bits 0) := by
  have h : recvSurfaced (s.setDecoder d) =
      .timeout { s with pend := s.pend - es.length, rx := rest, decoder := some d } := by
    rw [recvSurfaced, State.setDecoder_rx, hrx, recvFrom_timeout _ _ _ (by simpa using hl)]; rfl
  simp only [decLoop, h]; rfl

theorem decLoop_unanswered {fuel : Nat} {d : Decoder} {s : State} {es : List Byte}
    (hrx : s.rx = byteAnswers es) (hl : es.length ≤ s.pend) :
    decLoop fuel d s = .fault .receiveUnanswered := by
  cases fuel with
  | zero => rfl
  | succ n =>
    have h : recvSurfaced (s.setDecoder d) = .unanswered := by
      rw [recvSurfaced, State.setDecoder_rx, hrx, recvFrom_unanswered _ _ (by simpa using hl)]
    simp only [decLoop, h]

/-- More fuel than answers changes nothing. -/
theorem decLoop_fuel {fuel : Nat} {d : Decoder} {s : State} (h : s.rx.length ≤ fuel) :
    decLoop fuel d s = decRun d s := by
  suffices hgen : ∀ n fuel : Nat, ∀ d s, s.rx.length ≤ n → s.rx.length ≤ fuel → decLoop fuel d s = decLoop n d s from
    (hgen _ _ d s (Nat.le_refl _) h)
  clear h fuel d s
  intro n
  induction n with
  | zero =>
    intro fuel d s h0 _
    have : s.rx = [] := List.eq_nil_of_length_eq_zero (by omega)
    rw [decLoop_unanswered (es := []) (by simpa using this) (by simp),
      decLoop_unanswered (es := []) (by simpa using this) (by simp)]
  | succ n ih =>
    intro fuel d s hn hf
    rcases stream_cases s.rx s.pend with ⟨es, b, rest, hrx, hl⟩ | ⟨es, rest, hrx, hl⟩ | ⟨es, hrx, hl⟩
    · rw [hrx] at hn hf
      simp at hn hf
      obtain ⟨f, rfl⟩ : ∃ f, fuel = f + 1 := ⟨fuel - 1, by omega⟩
      rw [decLoop_surfaced hrx hl, decLoop_surfaced hrx hl]
      cases decTransition b d with
      | goOn d' => exact ih f d' _ (by simp; omega) (by simp; omega)
      | ends code aux data => rfl
    · rw [hrx] at hf
      simp at hf
      obtain ⟨f, rfl⟩ : ∃ f, fuel = f + 1 := ⟨fuel - 1, by omega⟩
      rw [decLoop_timeout hrx hl, decLoop_timeout hrx hl]
    · rw [decLoop_unanswered hrx hl, decLoop_unanswered hrx hl]

theorem decRun_surfaced {d : Decoder} {s : State} {es : List Byte} {b : Byte} {rest : List Answer}
    (hrx : s.rx = byteAnswers es ++ .byte b :: rest) (hl : es.length = s.pend) :
    decRun d s =
      match decTransition b d with
      | .goOn d' => decRun d' { s with pend := 0, rx := rest }
      | .ends code aux data => .next ({ s with pend := 0, rx := rest, decoder := none }.result code aux data) := by
  have h : decRun d s = decLoop ((es.length + rest.length) + 1) d s := by
    rw [decRun, hrx]; congr 1; simp; omega
  rw [h, decLoop_surfaced hrx hl]
  cases decTransition b d with
  | goOn d' => exact decLoop_fuel (by simp)
  | ends code aux data => rfl

theorem decRun_timeout {d : Decoder} {s : State} {es : List Byte} {rest : List Answer}
    (hrx : s.rx = byteAnswers es ++ .timeout :: rest) (hl : es.length ≤ s.pend) :
    decRun d s =
      .next ({ s with pend := s.pend - es.length, rx := rest, decoder := none }.result .timeout d.dst.bits 0) := by
  have h : decRun d s = decLoop ((es.length + rest.length) + 1) d s := by
    rw [decRun, hrx]; congr 1; simp; omega
  rw [h, decLoop_timeout hrx hl]

theorem decRun_unanswered {d : Decoder} {s : State} {es : List Byte}
    (hrx : s.rx = byteAnswers es) (hl : es.length ≤ s.pend) :
    decRun d s = .fault .receiveUnanswered := decLoop_unanswered hrx hl


/-- Everything one DEC can do: it ends with what the state that saw the last answer says. -/
theorem decRun_induction {P : Decoder → State → Out → Prop}
    (surfacedEnds : ∀ d s es b rest code aux data, s.rx = byteAnswers es ++ .byte b :: rest → es.length = s.pend →
      decTransition b d = .ends code aux data →
      P d s (.next ({ s with pend := 0, rx := rest, decoder := none }.result code aux data)))
    (surfacedGoesOn : ∀ d d' s es b rest o, s.rx = byteAnswers es ++ .byte b :: rest → es.length = s.pend →
      decTransition b d = .goOn d' → P d' { s with pend := 0, rx := rest } o → P d s o)
    (timedOut : ∀ d s es rest, s.rx = byteAnswers es ++ .timeout :: rest → es.length ≤ s.pend →
      P d s (.next ({ s with pend := s.pend - es.length, rx := rest, decoder := none }.result .timeout d.dst.bits 0)))
    (unanswered : ∀ d s es, s.rx = byteAnswers es → es.length ≤ s.pend → P d s (.fault .receiveUnanswered))
    (d : Decoder) (s : State) : P d s (decRun d s) := by
  suffices hgen : ∀ n d s, s.rx.length = n → P d s (decRun d s) from hgen _ d s rfl
  intro n
  induction n using Nat.strongRecOn with
  | _ n ih =>
    intro d s hn
    rcases stream_cases s.rx s.pend with ⟨es, b, rest, hrx, hl⟩ | ⟨es, rest, hrx, hl⟩ | ⟨es, hrx, hl⟩
    · rw [decRun_surfaced hrx hl]
      cases ht : decTransition b d with
      | goOn d' =>
        refine surfacedGoesOn d d' s es b rest _ hrx hl ht (ih rest.length ?_ d' _ rfl)
        rw [hrx] at hn; simp at hn; omega
      | ends code aux data => exact surfacedEnds d s es b rest code aux data hrx hl ht
    · rw [decRun_timeout hrx hl]; exact timedOut d s es rest hrx hl
    · rw [decRun_unanswered hrx hl]; exact unanswered d s es hrx hl

end Sys2Proof.Machine
end

