-- ==== Sys2Proof/Laws/Exec.lean ====
section
/-! SUPPORT. One lemma per command: what `exec` answers while the block is not faulted; and the fault rule for all. -/

namespace Sys2Proof.Machine

/-- R204, cause 2. -/
theorem exec_faulted {i : Instr} {s : State} (h : s.fault = true) (hi : i ≠ .stat) :
    exec i s = .next s.resultFaulted := by
  cases i with
  | stat => exact absurd rfl hi
  | _ =>
    simp only [exec, execNop, execCrcclr, execCrcrd, execTxd, execTxr, execTxc, execTxe, execRxrd, execEprobe,
      execEclr, execDec, execUnf, execUnfclr]
    exact unlessFaulted_faulted h

section
variable {s : State} (h : s.fault = false)
include h

theorem exec_nop : exec .nop s = .next (s.result .ok 0 0) := by
  simp only [exec, execNop, unlessFaulted_running h]

theorem exec_crcclr : exec .crcclr s = .next (s.clearCrc.result .ok 0 0) := by
  simp only [exec, execCrcclr, unlessFaulted_running h]

theorem exec_crcrd : exec .crcrd s = .next (s.result .crc 0 (crcData s.crc)) := by
  simp only [exec, execCrcrd, unlessFaulted_running h]

theorem exec_eclr : exec .eclr s = .next (s.clearEcho.result .ok 0 0) := by
  simp only [exec, execEclr, unlessFaulted_running h]

theorem exec_unfclr : exec .unfclr s = .next ((s.setEsc false).result .ok 0 0) := by
  simp only [exec, execUnfclr, unlessFaulted_running h]

theorem exec_unf (b : Byte) :
    exec (.unf b) s = .next (if s.esc then unfFollower b s else unfIdle b s) := by
  simp only [exec, execUnf, unlessFaulted_running h]

/-- The four transmit commands are `transmit` of the bytes they name. -/
theorem exec_transmit {i : Instr} (hi : i.wireBytes ≠ []) : exec i s = transmit i.wireBytes s := by
  cases i <;> first | exact unlessFaulted_running h | exact absurd rfl hi

theorem exec_rxrd : exec .rxrd s = receiveOne (fun b s => s.resultByte b) s := unlessFaulted_running h

theorem exec_eprobe (ref : Byte) : exec (.eprobe ref) s = receiveOne (probeByte ref) s := unlessFaulted_running h

theorem exec_dec : exec .dec s = decRun decoderInit s := unlessFaulted_running h

end

theorem exec_stat (s : State) : exec .stat s = .next (s.result .status (statusAux s) (pendData s.pend)) := rfl

/-- Everything a one-byte receive can do. -/
theorem receiveOne_cases (onByte : Byte → State → State) (s : State) :
    (∃ es b rest, s.rx = byteAnswers es ++ .byte b :: rest ∧ es.length = s.pend ∧
      receiveOne onByte s = .next (onByte b { s with pend := 0, rx := rest })) ∨
    (∃ es rest, s.rx = byteAnswers es ++ .timeout :: rest ∧ es.length ≤ s.pend ∧
      receiveOne onByte s = .next ({ s with pend := s.pend - es.length, rx := rest }.result .timeout 0 0)) ∨
    ∃ es, s.rx = byteAnswers es ∧ es.length ≤ s.pend ∧ receiveOne onByte s = .fault .receiveUnanswered := by
  rcases recvSurfaced_cases s with ⟨es, b, rest, hrx, hl, h⟩ | ⟨es, rest, hrx, hl, h⟩ | ⟨es, hrx, hl, h⟩
  · exact .inl ⟨es, b, rest, hrx, hl, by simp only [receiveOne, h]⟩
  · exact .inr (.inl ⟨es, rest, hrx, hl, by simp only [receiveOne, h]⟩)
  · exact .inr (.inr ⟨es, hrx, hl, by simp only [receiveOne, h]⟩)

theorem receiveOne_byte {onByte : Byte → State → State} {s : State} {es : List Byte} {b : Byte} {rest : List Answer}
    (hrx : s.rx = byteAnswers es ++ .byte b :: rest) (hl : es.length = s.pend) :
    receiveOne onByte s = .next (onByte b { s with pend := 0, rx := rest }) := by
  simp only [receiveOne, recvSurfaced, hrx, recvFrom_byte _ _ _ _ hl]

theorem receiveOne_timeout {onByte : Byte → State → State} {s : State} {es : List Byte} {rest : List Answer}
    (hrx : s.rx = byteAnswers es ++ .timeout :: rest) (hl : es.length ≤ s.pend) :
    receiveOne onByte s = .next ({ s with pend := s.pend - es.length, rx := rest }.result .timeout 0 0) := by
  simp only [receiveOne, recvSurfaced, hrx, recvFrom_timeout _ _ _ hl]

theorem receiveOne_unanswered {onByte : Byte → State → State} {s : State} {es : List Byte}
    (hrx : s.rx = byteAnswers es) (hl : es.length ≤ s.pend) :
    receiveOne onByte s = .fault .receiveUnanswered := by
  simp only [receiveOne, recvSurfaced, hrx, recvFrom_unanswered _ _ hl]

end Sys2Proof.Machine
end

