-- ==== Sys2Proof/Laws/Effect.lean ====
section
/-! SUPPORT. Everything a command can do when it answers a next state, said once: what a receiving command leaves
(`ReceiveEffect`), and what any command does to the streams, the CRC and the fault flag (`ExecEffect`). -/

namespace Sys2Proof.Machine

theorem leadingBytes_byte (es : List Byte) (b : Byte) (rest : List Answer) :
    leadingBytes (byteAnswers es ++ .byte b :: rest) = es.length + 1 + leadingBytes rest := by
  induction es with
  | nil => simp [leadingBytes]; omega
  | cons e es ih => simp [leadingBytes, ih]; omega

theorem leadingBytes_timeout (es : List Byte) (rest : List Answer) :
    leadingBytes (byteAnswers es ++ .timeout :: rest) = es.length := by
  induction es with
  | nil => rfl
  | cons e es ih => simp [leadingBytes, ih]

/-- The echoes a receiving command discards. -/
def State.echoesDue (s : State) : Nat := min s.pend (leadingBytes s.rx)

theorem echoesDue_byte {s : State} {es : List Byte} {b : Byte} {rest : List Answer}
    (hrx : s.rx = byteAnswers es ++ .byte b :: rest) (hl : es.length = s.pend) : s.echoesDue = s.pend := by
  rw [State.echoesDue, hrx, leadingBytes_byte]; omega

theorem echoesDue_timeout {s : State} {es : List Byte} {rest : List Answer}
    (hrx : s.rx = byteAnswers es ++ .timeout :: rest) (hl : es.length ≤ s.pend) : s.echoesDue = es.length := by
  rw [State.echoesDue, hrx, leadingBytes_timeout]; omega

/-- What a receiving command leaves: it took some answers, it discarded the echoes due, and beside its result it
changed nothing but `ow` and the decoder's registers. -/
structure ReceiveEffect (s t : State) : Prop where
  frame : t = { s with ow := t.ow, pend := s.pend - s.echoesDue, rx := t.rx, decoder := t.decoder,
                       resCode := t.resCode, resData := t.resData }
  took : ∃ taken, taken ≠ [] ∧ s.rx = taken ++ t.rx

theorem receiveOne_effect {onByte : Byte → State → State} {s t : State}
    (hb : ∀ b s, onByte b s =
      { s with ow := (onByte b s).ow, resCode := (onByte b s).resCode, resData := (onByte b s).resData })
    (h : receiveOne onByte s = .next t) : ReceiveEffect s t ∧ t.decoder = s.decoder := by
  rcases receiveOne_cases onByte s with ⟨es, b, rest, hrx, hl, h'⟩ | ⟨es, rest, hrx, hl, h'⟩ | ⟨es, hrx, hl, h'⟩
  · rw [h'] at h; cases h
    refine ⟨⟨?_, byteAnswers es ++ [.byte b], by simp, ?_⟩, by rw [hb]⟩
    · rw [echoesDue_byte hrx hl, hb]; simp
    · rw [hb, hrx]; simp
  · rw [h'] at h; cases h
    refine ⟨⟨?_, byteAnswers es ++ [.timeout], by simp, ?_⟩, rfl⟩
    · rw [echoesDue_timeout hrx hl]; rfl
    · rw [hrx]; simp
  · rw [h'] at h; cases h

theorem decRun_effect {d : Decoder} {s t : State} (h : decRun d s = .next t) :
    ReceiveEffect s t ∧ t.decoder = none ∧ t.ow = s.ow := by
  refine decRun_induction (P := fun _ s o => ∀ t, o = .next t → ReceiveEffect s t ∧ t.decoder = none ∧ t.ow = s.ow)
    ?ends ?goesOn ?timedOut ?unanswered d s t h
  case ends =>
    intro d s es b rest code aux data hrx hl _ t ht
    cases ht
    refine ⟨⟨?_, byteAnswers es ++ [.byte b], by simp, ?_⟩, rfl, rfl⟩
    · rw [echoesDue_byte hrx hl]; simp [State.result]
    · rw [hrx]; simp
  case goesOn =>
    intro d d' s es b rest o hrx hl _ ih t ht
    obtain ⟨⟨hf, taken, hne, htk⟩, hd, how⟩ := ih t ht
    refine ⟨⟨?_, byteAnswers es ++ .byte b :: taken, by simp, ?_⟩, hd, how⟩
    · rw [echoesDue_byte hrx hl]; rw [hf]; simp
    · rw [hrx]; simp at htk; simp [htk]
  case timedOut =>
    intro d s es rest hrx hl t ht
    cases ht
    refine ⟨⟨?_, byteAnswers es ++ [.timeout], by simp, ?_⟩, rfl, rfl⟩
    · rw [echoesDue_timeout hrx hl]; rfl
    · rw [hrx]; simp
  case unanswered => intro d s es _ _ t ht; cases ht

theorem probeByte_frame (ref b : Byte) (s : State) :
    probeByte ref b s = { s with ow := (probeByte ref b s).ow, resCode := (probeByte ref b s).resCode,
                                 resData := (probeByte ref b s).resData } := by
  unfold probeByte; split <;> rfl

theorem exec_receive_effect {i : Instr} {s t : State} (hi : i.receives = true) (hf : s.fault = false)
    (h : exec i s = .next t) :
    ReceiveEffect s t ∧ t.decoder = (if i = .dec then none else s.decoder) := by
  cases i <;> simp [Instr.receives] at hi
  case rxrd => rw [exec_rxrd hf] at h; exact receiveOne_effect (fun _ _ => rfl) h
  case eprobe ref => rw [exec_eprobe hf] at h; exact receiveOne_effect (probeByte_frame ref) h
  case dec => rw [exec_dec hf] at h; exact ⟨(decRun_effect h).1, (decRun_effect h).2.1⟩

/-- UNF's next state: it changes `esc` and its result only. -/
def unfNext (b : Byte) (s : State) : State := if s.esc then unfFollower b s else unfIdle b s

theorem unfNext_frame (b : Byte) (s : State) :
    unfNext b s = { s with esc := (unfNext b s).esc, resCode := (unfNext b s).resCode, resData := (unfNext b s).resData } := by
  unfold unfNext unfFollower unfIdle
  dsimp only
  repeat' split
  all_goals rfl

theorem wireBytes_of_receives {i : Instr} (h : i.receives = true) : i.wireBytes = [] := by
  cases i <;> first | rfl | cases h

theorem enc_ne_nil (d : Byte) : enc d ≠ [] := by unfold enc; split <;> simp

/-- What any command did to the streams, the CRC and the fault flag: it sent the bytes `sent` and took the answers
`taken`. -/
structure ExecEffect (i : Instr) (s t : State) (sent : List Byte) (taken : List Answer) : Prop where
  named : sent <+: i.wireBytes
  tx : t.tx = s.tx ++ sent
  rx : s.rx = taken ++ t.rx
  takesNone : i.receives = false → taken = []
  params : t.params = s.params
  inputs : t.inputs = s.inputs
  decoder : i.receives = false → t.decoder = s.decoder
  crc : t.crc = if i = .crcclr ∧ s.fault = false then 0x0000 else crcFold s.crc sent
  sends : i.wireBytes ≠ [] → t.ow = s.ow ∧ t.esc = s.esc ∧ t.pend = if s.ow then s.pend + sent.length else s.pend
  overflow : s.fault = false → t.fault = true →
    i.wireBytes ≠ [] ∧ s.ow = true ∧ t.pend = s.pendMax ∧ t.resCode = 0x0F ∧ t.resData = 0
  complete : i.wireBytes ≠ [] → t.fault = false → sent = i.wireBytes ∧ t.resCode = 0x00 ∧ t.resData = 0
  sticky : s.fault = true → t.fault = true

theorem exec_transmit_effect {i : Instr} {s t : State} (hw : i.wireBytes ≠ []) (hf : s.fault = false)
    (h : exec i s = .next t) : ∃ sent, ExecEffect i s t sent [] := by
  have hc : i ≠ .crcclr := by rintro rfl; exact hw rfl
  rw [exec_transmit hf hw] at h
  rcases transmit_cases i.wireBytes s with ⟨h', -⟩ | ⟨before, w, after, hws, how, hp, h'⟩ <;> rw [h'] at h <;> cases h
  · exact ⟨i.wireBytes, by constructor <;> simp [hc, hf, ResultCode.bits]⟩
  · refine ⟨before, ?_⟩
    constructor <;> simp [hc, hf, how, hp, hws]

theorem exec_receiving_effect {i : Instr} {s t : State} (hr : i.receives = true) (hf : s.fault = false)
    (h : exec i s = .next t) : ∃ taken, ExecEffect i s t [] taken := by
  obtain ⟨⟨hfr, taken, -, ht⟩, -⟩ := exec_receive_effect hr hf h
  have hc : i ≠ .crcclr := by rintro rfl; cases hr
  refine ⟨taken, ?_⟩
  rw [hfr]
  constructor <;> simp [wireBytes_of_receives hr, hr, hc, hf, ht]

theorem exec_quiet_effect {i : Instr} {s t : State} (hw : i.wireBytes = []) (hr : i.receives = false)
    (hf : s.fault = false) (h : exec i s = .next t) : ExecEffect i s t [] [] := by
  cases i <;> simp [Instr.receives] at hr
  case txd d => exact absurd hw (enc_ne_nil d)
  case txr => cases hw
  case txc => cases hw
  case txe => cases hw
  case nop => rw [exec_nop hf] at h; cases h; constructor <;> simp [hf, Instr.wireBytes]
  case crcclr => rw [exec_crcclr hf] at h; cases h; constructor <;> simp [hf, Instr.wireBytes]
  case crcrd => rw [exec_crcrd hf] at h; cases h; constructor <;> simp [hf, Instr.wireBytes]
  case eclr => rw [exec_eclr hf] at h; cases h; constructor <;> simp [hf, Instr.wireBytes]
  case unf b =>
    rw [exec_unf hf] at h; cases h
    change ExecEffect _ s (unfNext b s) [] []
    rw [unfNext_frame]; constructor <;> simp [hf, Instr.wireBytes]
  case unfclr => rw [exec_unfclr hf] at h; cases h; constructor <;> simp [hf, Instr.wireBytes]
  case stat => rw [exec_stat] at h; cases h; constructor <;> simp [hf, Instr.wireBytes]

/-- Everything a command can do to the streams, the CRC and the fault flag. -/
theorem exec_effect {i : Instr} {s t : State} (h : exec i s = .next t) : ∃ sent taken, ExecEffect i s t sent taken := by
  cases hf : s.fault
  · by_cases hw : i.wireBytes = []
    · cases hr : i.receives
      · exact ⟨[], [], exec_quiet_effect hw hr hf h⟩
      · exact ⟨[], exec_receiving_effect hr hf h⟩
    · obtain ⟨sent, he⟩ := exec_transmit_effect hw hf h
      exact ⟨sent, [], he⟩
  · refine ⟨[], [], ?_⟩
    by_cases hst : i = .stat
    · subst hst; rw [exec_stat] at h; cases h; constructor <;> simp [hf, Instr.wireBytes]
    · rw [exec_faulted hf hst] at h; cases h; constructor <;> simp [hf]

/-- No command is refused. -/
theorem exec_ne_refused (i : Instr) (s : State) (r : Refusal) : exec i s ≠ .refused r := by
  intro h
  by_cases hst : i = .stat
  · subst hst; cases h
  cases hf : s.fault
  · cases i with
    | stat => cases h
    | nop => rw [exec_nop hf] at h; cases h
    | crcclr => rw [exec_crcclr hf] at h; cases h
    | crcrd => rw [exec_crcrd hf] at h; cases h
    | eclr => rw [exec_eclr hf] at h; cases h
    | unf b => rw [exec_unf hf] at h; cases h
    | unfclr => rw [exec_unfclr hf] at h; cases h
    | rxrd =>
      rw [exec_rxrd hf] at h
      rcases receiveOne_cases (fun b s => s.resultByte b) s with
        ⟨_, _, _, _, _, h'⟩ | ⟨_, _, _, _, h'⟩ | ⟨_, _, _, h'⟩ <;> rw [h'] at h <;> cases h
    | eprobe ref =>
      rw [exec_eprobe hf] at h
      rcases receiveOne_cases (probeByte ref) s with
        ⟨_, _, _, _, _, h'⟩ | ⟨_, _, _, _, h'⟩ | ⟨_, _, _, h'⟩ <;> rw [h'] at h <;> cases h
    | dec =>
      rw [exec_dec hf] at h
      revert h
      refine decRun_induction (P := fun _ _ o => o ≠ .refused r) ?_ ?_ ?_ ?_ decoderInit s <;> intros <;>
        first | assumption | (intro h'; cases h')
    | txd d =>
      rw [exec_transmit (i := .txd d) hf (enc_ne_nil d)] at h
      rcases transmit_cases _ s with ⟨h', -⟩ | ⟨_, _, _, _, _, _, h'⟩ <;> rw [h'] at h <;> cases h
    | txr b =>
      rw [exec_transmit hf (by simp [Instr.wireBytes])] at h
      rcases transmit_cases _ s with ⟨h', -⟩ | ⟨_, _, _, _, _, _, h'⟩ <;> rw [h'] at h <;> cases h
    | txc b =>
      rw [exec_transmit hf (by simp [Instr.wireBytes])] at h
      rcases transmit_cases _ s with ⟨h', -⟩ | ⟨_, _, _, _, _, _, h'⟩ <;> rw [h'] at h <;> cases h
    | txe =>
      rw [exec_transmit hf (by simp [Instr.wireBytes])] at h
      rcases transmit_cases _ s with ⟨h', -⟩ | ⟨_, _, _, _, _, _, h'⟩ <;> rw [h'] at h <;> cases h
  · rw [exec_faulted hf hst] at h; cases h

end Sys2Proof.Machine
end

