-- ==== Sys2Proof/Laws/PerInstr.lean ====
section
/-! SUPPORT. One statement about every command as syntax: its encoding is a legal word (spec/30_encoding.md R73). -/

namespace Sys2Proof.Laws.Encoding

/-- The encoding is a legal word with the command's opcode and operand in their fields (R70, R73). -/
def Statement (i : Instr) : Prop :=
  legalWord (encode i) = true ∧ fieldOp (encode i) = i.op ∧ fieldRsv (encode i) = 0 ∧ fieldArg (encode i) = i.arg

theorem nop : Statement .nop := by unfold Statement; decide
theorem crcclr : Statement .crcclr := by unfold Statement; decide
theorem crcrd : Statement .crcrd := by unfold Statement; decide
theorem txd (d : Byte) : Statement (.txd d) := by revert d; unfold Statement; decide
theorem txr (b : Byte) : Statement (.txr b) := by revert b; unfold Statement; decide
theorem txc (op8 : Byte) : Statement (.txc op8) := by revert op8; unfold Statement; decide
theorem txe : Statement .txe := by unfold Statement; decide
theorem rxrd : Statement .rxrd := by unfold Statement; decide
theorem eprobe (ref : Byte) : Statement (.eprobe ref) := by revert ref; unfold Statement; decide
theorem eclr : Statement .eclr := by unfold Statement; decide
theorem dec : Statement .dec := by unfold Statement; decide
theorem unf (b : Byte) : Statement (.unf b) := by revert b; unfold Statement; decide
theorem unfclr : Statement .unfclr := by unfold Statement; decide
theorem stat : Statement .stat := by unfold Statement; decide

end Sys2Proof.Laws.Encoding
end

