-- ==== Sys2Proof/Laws/Reply.lean ====
section
/-! SUPPORT. How DEC goes through the parts of a reply (spec/43_decoder.md R173 to R176), and the bounds its registers
keep (spec/10_state.md R28). -/

namespace Sys2Proof.Machine

/-- The accumulation in 32 bits is the big-endian number, cut to 32 bits. -/
theorem accumulate_eq (vs : List Byte) (a : Nat) :
    vs.foldl (fun v b => v * 256 + byteData b) (BitVec.ofNat 32 a) =
      BitVec.ofNat 32 (vs.foldl (fun v b => v * 256 + b.toNat) a) := by
  induction vs generalizing a with
  | nil => rfl
  | cons b vs ih =>
    simp only [List.foldl]
    rw [← ih]
    congr 1
    apply BitVec.eq_of_toNat_eq; simp [byteData]

theorem accumulate_lt (vs : List Byte) (a : Nat) :
    vs.foldl (fun v b => v * 256 + b.toNat) a < (a + 1) * 256 ^ vs.length := by
  induction vs generalizing a with
  | nil => simp
  | cons b vs ih =>
    simp only [List.foldl, List.length]
    have hb := b.isLt
    calc _ < _ := ih (a * 256 + b.toNat)
      _ ≤ ((a + 1) * 256) * 256 ^ vs.length := Nat.mul_le_mul_right _ (by omega)
      _ = _ := by rw [Nat.pow_succ]; ring

theorem bigEndian_lt (vs : List Byte) : bigEndian vs < 256 ^ vs.length := by
  have h := accumulate_lt vs 0
  rw [Nat.zero_add, Nat.one_mul] at h
  exact h

/-- The ANSWER token, after the pending echoes (R173). -/
theorem decRun_answer {s : State} {es : List Byte} {rest : List Answer} (hl : es.length = s.pend)
    (hrx : s.rx = byteAnswers es ++ .byte 0xA8 :: rest) :
    decRun decoderInit s = decRun ⟨.sLen, 0, 0, 0⟩ { s with pend := 0, rx := rest } := by
  rw [decRun_surfaced hrx hl]; rfl

/-- The length byte (R174). -/
theorem decRun_length {s : State} {n : Nat} {rest : List Answer} (hp : s.pend = 0) (h1 : 1 ≤ n) (h4 : n ≤ 4)
    (hrx : s.rx = .byte (BitVec.ofNat 8 n) :: rest) :
    decRun ⟨.sLen, 0, 0, 0⟩ s =
      decRun ⟨.sAcc, BitVec.ofNat 3 n, BitVec.ofNat 3 n, 0⟩ { s with pend := 0, rx := rest } := by
  rw [decRun_surfaced (es := []) hrx hp.symm]
  interval_cases n <;> rfl

/-- Some of the value bytes still to come (R175). -/
theorem decRun_values {n : BitVec 3} {vs : List Byte} :
    ∀ {s : State} {k : Nat} {v : Data} {rest : List Answer}, s.pend = 0 → k < 8 → vs.length ≤ k → 1 ≤ k →
      s.rx = byteAnswers vs ++ rest →
      decRun ⟨.sAcc, n, BitVec.ofNat 3 k, v⟩ s =
        decRun ⟨if vs.length = k then .sTerm else .sAcc, n, BitVec.ofNat 3 (k - vs.length),
          vs.foldl (fun v b => v * 256 + byteData b) v⟩ { s with pend := 0, rx := rest } := by
  induction vs with
  | nil =>
    intro s k v rest hp hk hl h1 hrx
    have e : ({ s with pend := 0, rx := rest } : State) = s := by cases s; simp_all
    rw [e, if_neg (by simp; omega)]; rfl
  | cons b vs ih =>
    intro s k v rest hp hk hl h1 hrx
    rw [decRun_surfaced (es := []) (b := b) (rest := byteAnswers vs ++ rest) (by simpa using hrx) hp.symm]
    simp only [decTransition, tAcc]
    have hs : (BitVec.ofNat 3 k - 1 : BitVec 3) = BitVec.ofNat 3 (k - 1) := by interval_cases k <;> rfl
    rw [hs]
    by_cases hk1 : k = 1
    · subst hk1
      obtain rfl : vs = [] := by simpa using hl
      simp
    · have hne : ¬(BitVec.ofNat 3 (k - 1) : BitVec 3) = 0 := by interval_cases k <;> simp_all
      rw [if_neg hne]
      show decRun _ _ = _
      rw [ih (rest := rest) rfl (by omega) (by simp at hl; omega) (by omega) rfl]
      have hh : (vs.length = k - 1) ↔ (vs.length + 1 = k) := by omega
      simp [hh, Nat.sub_sub, Nat.add_comm]

/-- A reply up to some of its value bytes. -/
theorem decRun_announced {s : State} {es vs : List Byte} {n : Nat} {rest : List Answer} (hl : es.length = s.pend)
    (h1 : 1 ≤ n) (h4 : n ≤ 4) (hv : vs.length ≤ n)
    (hrx : s.rx = byteAnswers (es ++ [0xA8, BitVec.ofNat 8 n] ++ vs) ++ rest) :
    decRun decoderInit s =
      decRun ⟨if vs.length = n then .sTerm else .sAcc, BitVec.ofNat 3 n, BitVec.ofNat 3 (n - vs.length),
        BitVec.ofNat 32 (bigEndian vs)⟩ { s with pend := 0, rx := rest } := by
  rw [decRun_answer (rest := .byte (BitVec.ofNat 8 n) :: (byteAnswers vs ++ rest)) hl (by rw [hrx]; simp),
    decRun_length (n := n) (rest := byteAnswers vs ++ rest) rfl h1 h4 rfl,
    decRun_values (rest := rest) rfl (by omega) hv h1 rfl,
    show (0 : Data) = BitVec.ofNat 32 0 from rfl, accumulate_eq]
  rfl

/-- How many surfaced bytes DEC may still take. -/
def Decoder.ahead (d : Decoder) : Nat :=
  match d.dst with
  | .sToken => 7
  | .sLen => 6
  | .sAcc => d.drem.toNat + 1
  | .sTerm => 1

/-- What holds of the decoder's registers while a DEC runs. -/
def Decoder.Fits (d : Decoder) : Prop :=
  match d.dst with
  | .sToken => d.dval = 0
  | .sLen => d.dval = 0
  | .sAcc => 1 ≤ d.drem.toNat ∧ d.drem.toNat ≤ d.dlen.toNat ∧ d.dlen.toNat ≤ 4 ∧
      d.dval.toNat < 256 ^ (d.dlen.toNat - d.drem.toNat)
  | .sTerm => 1 ≤ d.dlen.toNat ∧ d.dlen.toNat ≤ 4 ∧ d.dval.toNat < 256 ^ d.dlen.toNat

theorem decoderInit_fits : decoderInit.Fits := rfl

/-- Every transition keeps the registers' bounds and comes nearer to the end. -/
theorem decTransition_fits {b : Byte} {d d' : Decoder} (h : d.Fits) (ht : decTransition b d = .goOn d') :
    d'.Fits ∧ d'.ahead + 1 ≤ d.ahead := by
  obtain ⟨dst, dlen, drem, dval⟩ := d
  cases dst
  · simp only [decTransition, tToken, decViol] at ht
    split at ht
    · cases ht
    · split at ht
      · cases ht; exact ⟨h, by simp [Decoder.ahead]⟩
      · cases ht
  · simp only [decTransition, tLen, decViol] at ht
    split at ht
    · cases ht
      rename_i hb
      obtain rfl : dval = 0 := h
      have hw : (b.setWidth 3).toNat = b.toNat := by simp; omega
      refine ⟨?_, ?_⟩
      · simp only [Decoder.Fits, hw]; exact ⟨hb.1, Nat.le_refl _, hb.2, by simp⟩
      · simp only [Decoder.ahead, hw]; omega
    · cases ht
  · simp only [decTransition, tAcc] at ht
    simp only [Decoder.Fits] at h
    obtain ⟨h1, h2, h3, h4⟩ := h
    have hd : (drem - 1).toNat = drem.toNat - 1 := by
      have := drem.isLt
      simp [BitVec.toNat_sub]; omega
    have hv : (dval * 256 + byteData b).toNat < 256 ^ (dlen.toNat - (drem.toNat - 1)) := by
      have hb := b.isLt
      rw [show dlen.toNat - (drem.toNat - 1) = dlen.toNat - drem.toNat + 1 by omega, Nat.pow_succ]
      have : (dval * 256 + byteData b).toNat ≤ dval.toNat * 256 + b.toNat := by
        simp [byteData]
        exact Nat.mod_le _ _
      omega
    split at ht
    · cases ht
      rename_i hz
      have h0 : drem.toNat - 1 = 0 := by rw [← hd, hz]; rfl
      rw [h0] at hv
      refine ⟨?_, ?_⟩
      · simp only [Decoder.Fits]; exact ⟨by omega, h3, by simpa using hv⟩
      · simp only [Decoder.ahead]; omega
    · cases ht
      rename_i hz
      have h0 : (drem - 1).toNat ≠ 0 := fun h => hz (BitVec.eq_of_toNat_eq (by simpa using h))
      refine ⟨?_, ?_⟩
      · simp only [Decoder.Fits, hd]; exact ⟨by omega, by omega, h3, hv⟩
      · simp only [Decoder.ahead, hd]; omega
  · simp only [decTransition, tTerm, decViol] at ht
    split at ht <;> cases ht

/-- DEC hangs only where the receive stream is all bytes and too short. -/
theorem decRun_hangs {d : Decoder} {s : State} {e : Fault} (hd : d.Fits) (h : decRun d s = .fault e) :
    Answer.timeout ∉ s.rx ∧ s.rx.length + 1 ≤ s.pend + d.ahead := by
  refine decRun_induction
    (P := fun d s o => d.Fits → o = .fault e → Answer.timeout ∉ s.rx ∧ s.rx.length + 1 ≤ s.pend + d.ahead)
    ?ends ?goesOn ?timedOut ?unanswered d s hd h
  case ends => intros; rename_i h; cases h
  case goesOn =>
    intro d d' s es b rest o hrx hl ht ih hf ho
    obtain ⟨h1, h2⟩ := decTransition_fits hf ht
    obtain ⟨h3, h4⟩ := ih h1 ho
    rw [hrx]
    refine ⟨?_, ?_⟩
    · simp; exact ⟨timeout_not_mem_byteAnswers es, h3⟩
    · simp at h4 ⊢; omega
  case timedOut => intros; rename_i h; cases h
  case unanswered =>
    intro d s es hrx hl _ _
    rw [hrx]
    refine ⟨timeout_not_mem_byteAnswers es, ?_⟩
    have : 1 ≤ d.ahead := by obtain ⟨dst, _, _, _⟩ := d; cases dst <;> simp [Decoder.ahead]
    simp; omega

end Sys2Proof.Machine
end

