-- ==== Sys2Proof/Laws/Sequence.lean ====
section
/-! SUPPORT. What a receiving or a quiet command does to `ow` and `pend`, and what sequences of transmit commands do
(spec/42_echo.md, spec/20_memory.md R60, R61). -/

namespace Sys2Proof.Machine

/-- A receiving command's counter, and the flags it leaves alone. -/
theorem exec_receiving_flags {i : Instr} {s t : State} (hr : i.receives = true) (hf : s.fault = false)
    (h : exec i s = .next t) :
    t.pend = s.pend - s.echoesDue ∧ t.fault = s.fault ∧ t.esc = s.esc ∧ t.params = s.params := by
  rw [(exec_receive_effect hr hf h).1.frame]; exact ⟨rfl, rfl, rfl, rfl⟩

/-- A receiving command leaves `ow`, unless it is an EPROBE that matched. -/
theorem exec_receiving_oneWire {i : Instr} {s t : State} (hr : i.receives = true) (hf : s.fault = false)
    (h : exec i s = .next t) :
    t.ow = s.ow ∨ ∃ ref, i = .eprobe ref ∧ t.ow = true ∧ t.resCode = 0x02 ∧ t.resData = ref.setWidth 32 := by
  cases i <;> simp [Instr.receives] at hr
  case rxrd =>
    rw [exec_rxrd hf] at h
    left
    rcases receiveOne_cases (fun b s => s.resultByte b) s with
      ⟨_, _, _, _, _, h'⟩ | ⟨_, _, _, _, h'⟩ | ⟨_, _, _, h'⟩ <;> rw [h'] at h <;> cases h <;> rfl
  case eprobe ref =>
    rw [exec_eprobe hf] at h
    rcases receiveOne_cases (probeByte ref) s with
      ⟨_, b, _, _, _, h'⟩ | ⟨_, _, _, _, h'⟩ | ⟨_, _, _, h'⟩ <;> rw [h'] at h <;> cases h
    · by_cases hb : b = ref
      · right; refine ⟨ref, rfl, ?_⟩; rw [probeByte, if_pos hb]; subst hb; exact ⟨rfl, rfl, rfl⟩
      · left; rw [probeByte, if_neg hb]; rfl
    · left; rfl
  case dec => rw [exec_dec hf] at h; left; exact (decRun_effect h).2.2

/-- A command that neither sends nor receives leaves `ow` and `pend`, unless it is an ECLR that ran. -/
theorem exec_quiet_echo {i : Instr} {s t : State} (hw : i.wireBytes = []) (hr : i.receives = false)
    (h : exec i s = .next t) :
    (i = .eclr ∧ s.fault = false ∧ t.ow = false ∧ t.pend = 0) ∨ (t.ow = s.ow ∧ t.pend = s.pend) := by
  by_cases hst : i = .stat
  · subst hst; cases h; right; exact ⟨rfl, rfl⟩
  cases hf : s.fault
  · cases i <;> simp [Instr.receives] at hr
    case txd d => exact absurd hw (enc_ne_nil d)
    case txr => cases hw
    case txc => cases hw
    case txe => cases hw
    case nop => rw [exec_nop hf] at h; cases h; right; exact ⟨rfl, rfl⟩
    case crcclr => rw [exec_crcclr hf] at h; cases h; right; exact ⟨rfl, rfl⟩
    case crcrd => rw [exec_crcrd hf] at h; cases h; right; exact ⟨rfl, rfl⟩
    case eclr => rw [exec_eclr hf] at h; cases h; left; exact ⟨rfl, rfl, rfl, rfl⟩
    case unf b =>
      rw [exec_unf hf] at h; cases h
      change _ ∨ ((unfNext b s).ow = _ ∧ (unfNext b s).pend = _)
      rw [unfNext_frame]; right; exact ⟨rfl, rfl⟩
    case unfclr => rw [exec_unfclr hf] at h; cases h; right; exact ⟨rfl, rfl⟩
    case stat => exact absurd rfl hst
  · rw [exec_faulted hf hst] at h; cases h; right; exact ⟨rfl, rfl⟩

/-- A faulted block stays faulted through any sequence. -/
theorem execAll_sticky {is : List Instr} {s t : State} (hf : s.fault = true) (h : execAll is s = .next t) :
    t.fault = true := by
  induction is generalizing s with
  | nil => cases h; exact hf
  | cons i is ih =>
    simp only [execAll] at h
    cases hx : exec i s with
    | next u =>
      rw [hx] at h
      obtain ⟨_, _, e⟩ := exec_effect hx
      exact ih (e.sticky hf) h
    | fault e => rw [hx] at h; cases h
    | refused e => rw [hx] at h; cases h

/-- A sequence of transmit commands that did not fault sent all the bytes it names. -/
theorem execAll_sends {is : List Instr} {s t : State} (hw : ∀ i ∈ is, i.wireBytes ≠ [])
    (h : execAll is s = .next t) (hf : t.fault = false) : t.tx = s.tx ++ is.flatMap Instr.wireBytes := by
  induction is generalizing s with
  | nil => cases h; simp
  | cons i is ih =>
    simp only [execAll] at h
    cases hx : exec i s with
    | next u =>
      rw [hx] at h
      obtain ⟨sent, taken, e⟩ := exec_effect hx
      have hu : u.fault = false := by
        cases hu : u.fault
        · rfl
        · rw [execAll_sticky hu h] at hf; cases hf
      rw [ih (fun j hj => hw j (by simp [hj])) h, e.tx, (e.complete (hw i (by simp)) hu).1]; simp
    | fault e => rw [hx] at h; cases h
    | refused e => rw [hx] at h; cases h

/-- With room for all of them, a sequence of transmit commands sends all its bytes. -/
theorem execAll_room {is : List Instr} {s : State} (hw : ∀ i ∈ is, i.wireBytes ≠ []) (hf : s.fault = false)
    (hr : s.hasRoom (is.flatMap Instr.wireBytes).length) :
    ∃ u, execAll is s = .next u ∧
      u = { s.afterSending (is.flatMap Instr.wireBytes) with resCode := u.resCode, resData := u.resData } := by
  induction is generalizing s with
  | nil => exact ⟨s, rfl, by simp [State.afterSending_nil]⟩
  | cons i is ih =>
    have hr1 : s.hasRoom i.wireBytes.length := by intro h; have := hr h; simp at this; simp; omega
    have h1 : exec i s = .next ((s.afterSending i.wireBytes).result .ok 0 0) := by
      rw [exec_transmit hf (hw i (by simp)), transmit, wireSendAll_room hr1]
    obtain ⟨u, hu, hu'⟩ := ih (s := (s.afterSending i.wireBytes).result .ok 0 0)
      (fun j hj => hw j (by simp [hj])) (by simpa [State.afterSending] using hf)
      (by
        intro h
        simp [State.afterSending, State.result] at h
        have := hr h
        simp at this
        simp [State.afterSending, h, State.pendMax] at *
        omega)
    refine ⟨u, by simp only [execAll, h1, andThen]; exact hu, ?_⟩
    rw [hu']
    simp [State.afterSending, State.result, crcFold_append]
    cases s.ow <;> simp <;> omega

/-- The three shapes of an encoded data byte (R101). -/
theorem enc_shape (d : Byte) :
    (enc d = [d] ∧ d ≠ 0x13 ∧ d ≠ 0xA5) ∨ enc d = [0xA5, 0x25] ∨ enc d = [0xA5, 0x93] := by
  revert d; decide

end Sys2Proof.Machine
end

