-- ==== Sys2Proof/Laws/Step.lean ====
section
/-! SUPPORT. Everything a step can do. -/

namespace Sys2Proof.Machine

/-- A step waits, runs a command word, or is a reset, between commands or inside one. -/
theorem step_cases {s : State} {o : Out} (h : step s = o) :
    (s.inputs = [] ∧ o = .next s) ∨
    (∃ w rest, s.inputs = .command w :: rest ∧ o = runWord w (s.withInputs rest)) ∨
    (∃ rest, s.inputs = .reset :: rest ∧ o = .next (s.withInputs rest).resetInput) ∨
    ∃ w k rest, s.inputs = .cut w k :: rest ∧
      o = .next (cutByReset k (s.withInputs rest) (runWord w (s.withInputs rest))) := by
  subst h
  unfold step nextInput
  split
  · rename_i h; exact .inl ⟨h, rfl⟩
  · rename_i i rest h
    cases i with
    | command w => exact .inr (.inl ⟨w, rest, h, rfl⟩)
    | reset => exact .inr (.inr (.inl ⟨rest, h, rfl⟩))
    | cut w k => exact .inr (.inr (.inr ⟨w, k, rest, h, rfl⟩))

theorem runWord_ok {w : Word} {i : Instr} (h : decodeWord w = .ok i) (s : State) : runWord w s = exec i s := by
  rw [runWord, h]

theorem runWord_error {w : Word} {e : Illegal} (h : decodeWord w = .error e) (s : State) :
    runWord w s = .next (s.result .illegal 0 0) := by rw [runWord, h]; rfl

/-- A command word either is illegal, or runs the command it decodes to. -/
theorem runWord_cases (w : Word) (s : State) :
    (∃ e, decodeWord w = .error e ∧ runWord w s = .next (s.result .illegal 0 0)) ∨
    ∃ i, decodeWord w = .ok i ∧ runWord w s = exec i s := by
  cases hd : decodeWord w with
  | error e => exact .inl ⟨e, rfl, runWord_error hd s⟩
  | ok i => exact .inr ⟨i, rfl, runWord_ok hd s⟩

/-- Whatever word runs, it only appends to the send stream and only takes from the front of the receive stream. -/
theorem runWord_streams {w : Word} {s t : State} (h : runWord w s = .next t) :
    ∃ sent taken, t.tx = s.tx ++ sent ∧ s.rx = taken ++ t.rx ∧ t.params = s.params ∧ t.inputs = s.inputs := by
  rcases runWord_cases w s with ⟨e, -, hr⟩ | ⟨i, -, hr⟩ <;> rw [hr] at h
  · cases h; exact ⟨[], [], by simp⟩
  · obtain ⟨sent, taken, he⟩ := exec_effect h
    exact ⟨sent, taken, he.tx, he.rx, he.params, he.inputs⟩

/-- A cut leaves the reset registers. -/
theorem cutByReset_frame (k : Nat) (s : State) (o : Out) :
    cutByReset k s o =
      { s.resetInput with tx := (cutByReset k s o).tx, rx := (cutByReset k s o).rx } := by
  unfold cutByReset; split <;> rfl

end Sys2Proof.Machine
end

