-- ==== Sys2Proof/Tests/Slice0.lean ====
section
/-! SUPPORT. The model's own tests, each by its rule or its vector of spec/95_test_vectors.md, and the witnesses that the
hypotheses of the obligations can be met. -/

namespace Sys2Proof.Tests

open Sys2Proof.Machine

/-! ### Helpers -/

/-- One field of the next state. -/
def out {α : Type} (f : State → α) (o : Out) : Option α :=
  match o with
  | .next s => some (f s)
  | .fault _ => none
  | .refused _ => none

/-- The result a step on the word `w` leaves. -/
def resultOf (s : State) (w : Nat) : Option Result := out State.readResult (step (s.withFetchWord 16 w))

/-- One-wire mode with a counter of `w` bits at `p`. -/
def oneWire (w p : Nat) : State := { State.reset with ow := true, pend := p, params := ⟨w, .asData⟩ }

/-- Reset, with the answers `rx` to come. -/
def receiving (rx : List Answer) : State := { State.reset with rx := rx }

/-- One-wire mode with `p` echoes pending and the answers `rx` to come. -/
def echoing (p : Nat) (rx : List Answer) : State := { State.reset with ow := true, pend := p, rx := rx }

/-- Reset, but faulted. -/
def faulted : State := { State.reset with fault := true }

/-- The unframer after an ESCAPE. -/
def escaped (a : A525) : State := { State.reset with esc := true, params := ⟨32, a⟩ }

/-- Reset, with `i` to come from outside. -/
def facing (i : Input) : State := { State.reset with inputs := [i] }

/-! ### Well-formedness: each check refuses an ill-formed term (R7, R9, R73, R88, R226, R227) -/

theorem test_legalWord_refuses_reservedOp : legalWord 0xE000 = false := by decide
theorem test_legalWord_refuses_rsv : legalWord 0x3100 = false := by decide
theorem test_legalWord_refuses_arg : legalWord 0x0001 = false := by decide
theorem test_legalWord_takes_operand : legalWord 0x30FF = true := by decide
theorem test_params_refuse_zero : Params.wf ⟨0, .asData⟩ = false := by decide
theorem test_params_refuse_33 : Params.wf ⟨33, .asEnd⟩ = false := by decide
theorem test_params_take_default : Params.default.wf = true := by decide

/-- A controller's opcodes for tests; the last is free. -/
def controller (last ref : Byte) : ControllerParams where
  opcodes := ⟨0x40, 0x41, 0x42, 0x43, 0x44, 0x50, 0x51, last⟩
  crcChkFramed := false
  pwRef := ref

theorem test_controller_refuses_25 : (controller 0x25 0x57).wf = false := by decide
theorem test_controller_refuses_93 : (controller 0x93 0x57).wf = false := by decide
theorem test_controller_refuses_connect : (controller 0x45 0xA6).wf = false := by decide
theorem test_controller_ok : (controller 0x45 0x57).wf = true := by decide
theorem test_line_refuses_missing_operand : AsmLine.wf ⟨.txd, []⟩ = false := by decide
theorem test_line_refuses_extra_operand : AsmLine.wf ⟨.nop, [0]⟩ = false := by decide
theorem test_line_refuses_256 : AsmLine.wf ⟨.txd, [256]⟩ = false := by decide
theorem test_line_refuses_empty_list : AsmLine.wf ⟨.sendblk, []⟩ = false := by decide

/-! ### Decoding: words written out from R70 and R72 as op, rsv, arg -/

theorem test_decode_nop : decodeWord 0b0000_0000_00000000#16 = .ok .nop := by decide
theorem test_decode_crcclr : decodeWord 0b0001_0000_00000000#16 = .ok .crcclr := by decide
theorem test_decode_crcrd : decodeWord 0b0010_0000_00000000#16 = .ok .crcrd := by decide
theorem test_decode_txd : decodeWord 0b0011_0000_10000001#16 = .ok (.txd 0x81) := by decide
theorem test_decode_txr : decodeWord 0b0100_0000_00010011#16 = .ok (.txr 0x13) := by decide
theorem test_decode_txc : decodeWord 0b0101_0000_01000000#16 = .ok (.txc 0x40) := by decide
theorem test_decode_txe : decodeWord 0b0110_0000_00000000#16 = .ok .txe := by decide
theorem test_decode_rxrd : decodeWord 0b0111_0000_00000000#16 = .ok .rxrd := by decide
theorem test_decode_eprobe : decodeWord 0b1000_0000_01010111#16 = .ok (.eprobe 0x57) := by decide
theorem test_decode_eclr : decodeWord 0b1001_0000_00000000#16 = .ok .eclr := by decide
theorem test_decode_dec : decodeWord 0b1010_0000_00000000#16 = .ok .dec := by decide
theorem test_decode_unf : decodeWord 0b1011_0000_11111110#16 = .ok (.unf 0xFE) := by decide
theorem test_decode_unfclr : decodeWord 0b1100_0000_00000000#16 = .ok .unfclr := by decide
theorem test_decode_stat : decodeWord 0b1101_0000_00000000#16 = .ok .stat := by decide
theorem test_decode_reserved : decodeWord 0b1111_0000_11111111#16 = .error .reservedOp := by decide
theorem test_decode_rsv : decodeWord 0b0011_0001_00000000#16 = .error .rsvNotZero := by decide
theorem test_decode_arg : decodeWord 0b1010_0000_00000001#16 = .error .argNotZero := by decide
theorem test_encode_unf : encode (.unf 0xA5) = 0xB0A5 := by decide
theorem test_tableWord : decodeTableWord 16 0x8057 = some (.eprobe 0x57) := by decide
theorem test_tableWord_illegal : decodeTableWord 16 0xE000 = none := by decide

/-! ### One step for each command -/

theorem test_nop : resultOf { State.reset with resCode := 0x03, resData := 0x30C0 } 0x0000 = some (0x00, 0) := by decide
theorem test_nop_faulted : resultOf faulted 0x0000 = some (0x0F, 0) := by decide
theorem test_crcclr : out State.crc (exec .crcclr { State.reset with crc := 0x30C0 }) = some 0x0000 := by decide
theorem test_crcrd : resultOf { State.reset with crc := 0x30C0 } 0x2000 = some (0x03, 0x30C0) := by decide
set_option maxRecDepth 4096 in
theorem test_txd_escapes : out (fun t => (t.tx, t.crc)) (exec (.txd 0xA5) State.reset) = some ([0xA5, 0x25], 0x8BBA) := by decide
/-- Trace F1: the overflow inside an escape pair. -/
theorem test_txd_overflow : out (fun t => (t.tx, t.crc, t.pend, t.fault, t.resCode))
    (exec (.txd 0xA5) { oneWire 2 2 with crc := 0x5180 }) = some ([0xA5], 0xDB90, 3, true, 0x0F) := by decide
theorem test_txr_raw : out (fun t => (t.tx, t.crc)) (exec (.txr 0x13) State.reset) = some ([0x13], 0xCD41) := by decide
theorem test_txr_counts : out State.pend (exec (.txr 0x41) (oneWire 32 0)) = some 1 := by decide
set_option maxRecDepth 4096 in
theorem test_txc : out (fun t => (t.tx, t.crc)) (exec (.txc 0x40) State.reset) = some ([0xA5, 0x40], 0xA07A) := by decide
set_option maxRecDepth 4096 in
theorem test_txc_escape : out (fun t => (t.tx, t.crc)) (exec (.txc 0xA5) State.reset) = some ([0xA5, 0xA5], 0x2BBB) := by decide
set_option maxRecDepth 4096 in
theorem test_txe : out (fun t => (t.tx, t.crc)) (exec .txe State.reset) = some ([0xA5, 0x25], 0x8BBA) := by decide
/-- Trace E1. -/
theorem test_rxrd : out (fun t => (t.readResult, t.pend, t.rx))
    (exec .rxrd (echoing 3 (byteAnswers [0x41, 0xA5, 0x25, 0xA9]))) = some ((0x01, 0xA9), 0, []) := by decide
/-- Trace E2. -/
theorem test_rxrd_timeout : out (fun t => (t.readResult, t.pend))
    (exec .rxrd (echoing 2 [.byte 0x41, .timeout])) = some ((0x07, 0), 1) := by decide
theorem test_eprobe_match : out (fun t => (t.readResult, t.ow))
    (exec (.eprobe 0x57) (receiving [.byte 0x57])) = some ((0x02, 0x57), true) := by decide
/-- Trace E3. -/
theorem test_eprobe_other : out (fun t => (t.readResult, t.ow))
    (exec (.eprobe 0x57) (receiving [.byte 0x58])) = some ((0x01, 0x58), false) := by decide
theorem test_eclr : out (fun t => (t.ow, t.pend, t.crc)) (exec .eclr { oneWire 32 2 with crc := 0x5180 })
    = some (false, 0, 0x5180) := by decide
theorem test_dec_value : resultOf (receiving (byteAnswers [0xA8, 0x04, 0xDE, 0xAD, 0xBE, 0xEF, 0xAA])) 0xA000
    = some (0x44, 0xDEADBEEF) := by decide
/-- Program P4: the rest of the reply stays. -/
theorem test_dec_violation : out (fun t => (t.readResult, t.rx))
    (exec .dec (receiving [.byte 0xA8, .byte 0x05, .byte 0x00])) = some ((0x16, 0x05), [.byte 0x00]) := by decide
theorem test_unf_flow : resultOf State.reset 0xB013 = some (0x38, 0x13) := by decide
theorem test_unf_end : resultOf (escaped .asEnd) 0xB025 = some (0x48, 0x25) := by decide
theorem test_unfclr : out (fun t => (t.esc, t.resCode)) (exec .unfclr (escaped .asData)) = some (false, 0x00) := by decide
theorem test_stat : resultOf (echoing 6 []) 0xD000 = some (0x19, 6) := by decide
theorem test_stat_faulted : resultOf { oneWire 2 3 with fault := true } 0xD000 = some (0x59, 3) := by decide

/-! ### The step and the reset input -/

theorem test_illegal_while_faulted : resultOf faulted 0xE000 = some (0x0E, 0) := by decide
theorem test_step_takes_word : out State.inputs (step (State.reset.withFetchWord 16 0xD000)) = some [] := by decide
/-- R209: nothing at the command port. -/
theorem test_step_idle : out State.readResult (step State.reset) = some (0x00, 0) := by decide
/-- R221: the ESCAPE that is out stays out, and no result is left. -/
theorem test_step_cut : out (fun t => (t.tx, t.crc, t.readResult)) (step (facing (.cut 0x30A5 1)))
    = some ([0xA5], 0x0000, (0x00, 0)) := by decide
/-- R221: a cut inside a hanging DEC; the answers consumed stay consumed. -/
theorem test_step_cut_hang : out State.rx (step { facing (.cut 0xA000 2) with rx := byteAnswers [0xA8, 0x02, 0x12] })
    = some [.byte 0x12] := by decide
theorem test_step_reset : out (fun t => (t.fault, t.rx))
    (step { facing .reset with fault := true, rx := [.byte 0x01] }) = some (false, [.byte 0x01]) := by decide

/-- R65 on program P4, with one answer more, which stays unread. -/
theorem test_runView : runView [0xA000, 0x7000, 0x7000, 0xA000]
    (receiving [.byte 0xA8, .byte 0x05, .byte 0x00, .byte 0xAA, .timeout, .byte 0x01]) = some {
      results := [(0x16, 0x05), (0x01, 0x00), (0x01, 0xAA), (0x07, 0)], sent := [], consumed := 5
      final := { crc := 0, ow := false, pend := 0, esc := false, fault := false, resCode := 0x07, resData := 0 } } := by
  decide

/-! ### The assembler (R88, R89) -/

theorem test_assemble_hex : (assembleText "TXD 0xA5".toList).toOption = some [0x30A5] := by decide
theorem test_assemble_comment : (assembleText "CRCRD           ; the snapshot".toList).toOption = some [0x2000] := by decide
theorem test_assemble_refuses_256 : (assembleText "TXR 256".toList).toOption = none := by decide
theorem test_assemble_decimal : (assembleText "UNF 165".toList).toOption = some [0xB0A5] := by decide
theorem test_assemble_refuses_letter : (assembleText "TXD 0xG0".toList).toOption = none := by decide
theorem test_assemble_block : (assembleText "SENDBLK 1, 0x13".toList).toOption = some [0x3001, 0x3013] := by decide

/-! ### Witnesses: the hypotheses of each obligation can be met, clause by clause -/

theorem witness_LegalWordsAreExactlyTheListed : decodeWord 0xF0FF = .error .reservedOp := by decide
theorem witness_AssemblerTakesWellFormedLines :
    (assembleLine ⟨.sendstr, [0, 255]⟩).toOption = some [.txr 0x00, .txr 0xFF] ∧
    (AsmLine.wf ⟨.crcsend, []⟩ = true ∧ (⟨.crcsend, []⟩ : AsmLine).mnemonic = .crcsend) ∧
    (.stat, .stat, 0xD000) ∈ plainLines ∧
    255 ≤ 255 ∧ (.sendcmd, .txc 0xFF, 0x5000) ∈ operandLines (BitVec.ofNat 8 255) ∧ ([0, 255] : List Nat) ≠ [] ∧ ∀ v ∈ ([0, 255] : List Nat), v ≤ 255 := by decide
theorem witness_StepRunsDecodedCommand :
    (facing (.command 0x30A5)).inputs = .command 0x30A5 :: [] ∧ decodeWord 0x30A5 = .ok (.txd 0xA5) := by decide
theorem witness_DispatchOrder :
    decodeWord 0xE000 = .error .reservedOp ∧
    (decodeWord 0x0000 = .ok .nop ∧ faulted.fault = true ∧ (0x0000 : Word).extractLsb' 12 4 ≠ 0xD) ∧
    (decodeWord 0x0000 = .ok .nop ∧ State.reset.fault = false) ∧
    (decodeWord 0xD000 = .ok .stat ∧ (0xD000 : Word).extractLsb' 12 4 = 0xD) := by decide
theorem witness_IllegalWordOnlyWritesResult :
    0xE000 ≤ (0xE000 : Word).toNat ∧ (0x0100 : Word) &&& 0x0F00 ≠ 0 ∧
    ((0xD0FF : Word) >>> 12).toNat ∈ [0x0, 0x1, 0x2, 0x6, 0x7, 0x9, 0xA, 0xC, 0xD] ∧ (0xD0FF : Word) &&& 0x00FF ≠ 0 ∧
    (facing (.command 0xE000)).inputs = .command 0xE000 :: [] ∧ decodeWord 0xE000 = .error .reservedOp := by decide
theorem witness_IdleBlockChangesNothing : State.reset.inputs = [] := rfl
theorem witness_ResetInputRestoresRegisters : (facing .reset).inputs = .reset :: [] := rfl
theorem witness_ResetCutsRunningCommand :
    (facing (.cut 0x30A5 1)).inputs = .cut 0x30A5 1 :: [] ∧
    (∃ u, runWord 0x30A5 { facing (.cut 0x30A5 1) with inputs := [] } = .next u) ∧
    runWord 0x7000 { facing (.cut 0x7000 1) with inputs := [] } = .fault .receiveUnanswered :=
  ⟨rfl, ⟨_, rfl⟩, rfl⟩
theorem witness_FaultIsSticky :
    ((oneWire 1 1).ow = true ∧ (oneWire 1 1).pend = (oneWire 1 1).pendMax) ∧
    (faulted.fault = true ∧ Instr.nop ≠ .stat) ∧
    (∃ t, step { faulted with inputs := [.reset] } = .next t ∧ t.fault = false) ∧
    (∃ t, step { faulted with inputs := [.cut 0x0000 0] } = .next t ∧ t.fault = false) ∧
    ∃ t, (oneWire 1 1).fault = false ∧ exec (.txr 0x01) (oneWire 1 1) = .next t ∧ t.fault = true :=
  ⟨by decide, by decide, ⟨_, rfl, rfl⟩, ⟨_, rfl, rfl⟩, _, rfl, rfl, rfl⟩
/-- NOP, CRCCLR, CRCRD, ECLR, UNFCLR: not faulted, and faulted. -/
theorem witness_fault_either_way : State.reset.fault = false ∧ faulted.fault = true := by decide
theorem witness_StatReportsFlagsAndCounter : State.reset.Ok := by
  constructor <;> simp [State.reset, Params.default, Params.wf]
theorem witness_CrcFollowsTheWire : ∃ t, exec (.txd 0xA5) State.reset = .next t := ⟨_, rfl⟩
/-- TXD, TXR, TXC, TXE: all the bytes fit, exactly; the second does not; the first does not. -/
theorem witness_TransmitRule :
    faulted.fault = true ∧
    ((oneWire 2 1).fault = false ∧ (oneWire 2 1).hasRoom [0xA5, 0x25].length) ∧
    ((oneWire 2 2).ow = true ∧ ([0xA5, 0x25] : List Byte) = [0xA5] ++ 0x25 :: [] ∧
      (oneWire 2 2).pend + [0xA5].length = (oneWire 2 2).pendMax) ∧
    ((oneWire 2 3).ow = true ∧ ([0x41] : List Byte) = [] ++ 0x41 :: [] ∧
      (oneWire 2 3).pend + ([] : List Byte).length = (oneWire 2 3).pendMax) :=
  ⟨rfl, ⟨rfl, fun _ => by decide⟩, ⟨rfl, rfl, rfl⟩, rfl, rfl, rfl⟩
theorem witness_FramedDataHidesReservedValues :
    (∃ t, execAll ([0xA5, 0x13, 0x25].map .txd) State.reset = .next t ∧ t.fault = false) ∧
    ([0xA5, 0x93] : List Byte) = [] ++ 0xA5 :: [0x93] := ⟨⟨_, rfl, rfl⟩, rfl⟩
theorem witness_WindowWithinBoundDoesNotFault :
    (oneWire 3 0).fault = false ∧ (oneWire 3 0).pend = 0 ∧ ([0xA5, 0x13] : List Byte).length ≤ 2 ∧
    2 * 2 + 2 ≤ (oneWire 3 0).pendMax := by decide
theorem witness_UnfDecodesOneByte :
    (Instr.nop ≠ .unfclr ∧ (∀ b, Instr.nop ≠ .unf b) ∧ ∃ t, exec .nop (escaped .asData) = .next t) ∧
    faulted.fault = true ∧ (State.reset.fault = false ∧ State.reset.esc = false) ∧
    ((escaped .asEnd).fault = false ∧ (escaped .asEnd).esc = true ∧ (escaped .asEnd).params.a525 = .asEnd) :=
  ⟨⟨nofun, nofun, _, rfl⟩, rfl, ⟨rfl, rfl⟩, rfl, rfl, rfl⟩
theorem witness_UnframerInvertsFramer : State.reset.fault = false ∧ State.reset.esc = false := by decide
theorem witness_UnframerIsSeparate :
    (∃ t, exec .unfclr (escaped .asData) = .next t ∧ t.esc ≠ (escaped .asData).esc) ∧
    (∃ t, exec (.unf 0xA5) State.reset = .next t ∧ State.reset.esc = false ∧ t.esc = true) ∧
    ((∀ b, Instr.txe ≠ .unf b) ∧ Instr.txe ≠ .unfclr ∧ Instr.txe ≠ .stat ∧ ∃ t, exec .txe State.reset = .next t) :=
  ⟨⟨_, rfl, by decide⟩, ⟨_, rfl, rfl, rfl⟩, nofun, nofun, nofun, _, rfl⟩
/-- RXRD and EPROBE: no echo and the last echo; a timeout at once and right after the last echo. -/
theorem witness_RxrdReadsSurfacedByte :
    faulted.fault = true ∧ State.reset.fault = false ∧
    (receiving [.byte 0x57]).rx = byteAnswers [] ++ .byte 0x57 :: [] ∧
    ([] : List Byte).length = (receiving [.byte 0x57]).pend ∧
    (echoing 1 [.byte 0x41, .byte 0xA9]).rx = byteAnswers [0x41] ++ .byte 0xA9 :: [] ∧
    ([0x41] : List Byte).length = (echoing 1 [.byte 0x41, .byte 0xA9]).pend ∧
    (receiving [.timeout]).rx = byteAnswers [] ++ .timeout :: [] ∧
    ([] : List Byte).length ≤ (receiving [.timeout]).pend ∧
    (echoing 1 [.byte 0x41, .timeout]).rx = byteAnswers [0x41] ++ .timeout :: [] ∧
    ([0x41] : List Byte).length ≤ (echoing 1 [.byte 0x41, .timeout]).pend := by decide
theorem witness_EprobeDetectsOneWire :
    (receiving [.byte 0x57]).fault = false ∧ (receiving [.byte 0x57]).rx = byteAnswers [] ++ .byte 0x57 :: [] ∧
    ([] : List Byte).length = (receiving [.byte 0x57]).pend ∧
    (receiving [.byte 0x57, .timeout]).rx = byteAnswers [] ++ .byte 0x57 :: [.timeout] ∧
    (echoing 1 [.byte 0x41, .timeout]).fault = false ∧
    (echoing 1 [.byte 0x41, .timeout]).rx = byteAnswers [0x41] ++ .timeout :: [] ∧
    ([0x41] : List Byte).length ≤ (echoing 1 [.byte 0x41, .timeout]).pend := by decide
/-- A stream of just the pending echoes; and a DEC that hangs after all but the last answer it could take. -/
theorem witness_OnlyUnansweredReceiveHangs :
    (Instr.dec.receives = true ∧ (echoing 1 [.byte 0x41]).fault = false ∧
      ∃ es : List Byte, (echoing 1 [.byte 0x41]).rx = byteAnswers es ∧ es.length ≤ (echoing 1 [.byte 0x41]).pend) ∧
    exec .rxrd (receiving []) = .fault .receiveUnanswered ∧
    exec .dec (receiving (byteAnswers [0xA8, 0x04, 0x01, 0x02, 0x03, 0x04])) = .fault .receiveUnanswered ∧
    ([0xA8, 0x04, 0x01, 0x02, 0x03, 0x04] : List Byte) <+:
      0xA8 :: BitVec.ofNat 8 ([1, 2, 3, 4] : List Byte).length :: ([1, 2, 3, 4] ++ [0xAA]) ∧
    ([0xA8] : List Byte) <+: 0xA8 :: BitVec.ofNat 8 ([1] : List Byte).length :: ([1] ++ [0xAA]) :=
  ⟨⟨rfl, rfl, [0x41], rfl, by decide⟩, rfl, rfl, by decide, by decide⟩
theorem witness_ReceivingCommandsComplete :
    Instr.rxrd.receives = true ∧ (receiving [.timeout]).fault = false ∧ Answer.timeout ∈ (receiving [.timeout]).rx ∧
    (receiving (byteAnswers [1, 2, 3, 4, 5, 6, 7])).pend + 7 ≤
      (receiving (byteAnswers [1, 2, 3, 4, 5, 6, 7])).rx.length := by decide
/-- Trace E1. -/
theorem witness_EchoesOfSentBytesAreDiscarded :
    (echoing 0 (byteAnswers [0x41, 0xA5, 0x25, 0xA9])).fault = false ∧
    (echoing 0 (byteAnswers [0x41, 0xA5, 0x25, 0xA9])).ow = true ∧
    (echoing 0 (byteAnswers [0x41, 0xA5, 0x25, 0xA9])).pend = 0 ∧
    (∀ i ∈ [Instr.txr 0x41, .txd 0xA5], i.wireBytes ≠ []) ∧
    ([Instr.txr 0x41, .txd 0xA5].flatMap Instr.wireBytes).length ≤
      (echoing 0 (byteAnswers [0x41, 0xA5, 0x25, 0xA9])).pendMax ∧
    ([0x41, 0xA5, 0x25] : List Byte).length = ([Instr.txr 0x41, .txd 0xA5].flatMap Instr.wireBytes).length ∧
    (echoing 0 (byteAnswers [0x41, 0xA5, 0x25, 0xA9])).rx =
      byteAnswers [0x41, 0xA5, 0x25] ++ .byte 0xA9 :: [] := by decide
theorem witness_DiscardedBytesAreNotExamined :
    Instr.rxrd.receives = true ∧ (echoing 1 []).fault = false ∧
    ([0x41] : List Byte).length = ([0x42] : List Byte).length ∧ ([0x41] : List Byte).length ≤ (echoing 1 []).pend := by
  decide
theorem witness_UnreadAnswersStay : ∃ t, exec .rxrd (receiving [.byte 0xA9]) = .next t := ⟨_, rfl⟩
theorem witness_OneWireFlagRule :
    (∃ t, exec (.eprobe 0x57) (receiving [.byte 0x57]) = .next t ∧ (receiving [.byte 0x57]).ow = false ∧ t.ow = true) ∧
    (∃ t, exec .eclr (oneWire 32 2) = .next t ∧ (oneWire 32 2).ow = true ∧ t.ow = false) ∧
    ∃ t, exec .txe (oneWire 32 0) = .next t ∧ t.tx = (oneWire 32 0).tx ++ [0xA5, 0x25] ∧ Instr.txe.wireBytes ≠ [] :=
  ⟨⟨_, rfl, rfl, rfl⟩, ⟨_, rfl, rfl, rfl⟩, _, rfl, rfl, by decide⟩
/-- A reply of one value byte, and one of four after an echo. -/
theorem witness_DecDecodesReply :
    ((receiving (byteAnswers [0xA8, 1, 0x00, 0xAA])).fault = false ∧
      ([] : List Byte).length = (receiving (byteAnswers [0xA8, 1, 0x00, 0xAA])).pend ∧
      1 ≤ ([0x00] : List Byte).length ∧
      (receiving (byteAnswers [0xA8, 1, 0x00, 0xAA])).rx =
        byteAnswers ([] ++ [0xA8, BitVec.ofNat 8 ([0x00] : List Byte).length] ++ [0x00] ++ [0xAA]) ++ []) ∧
    ((echoing 1 (byteAnswers [0x41, 0xA8, 4, 0xFF, 0xFF, 0xFF, 0xFF, 0xAA])).fault = false ∧
      ([0x41] : List Byte).length = (echoing 1 (byteAnswers [0x41, 0xA8, 4, 0xFF, 0xFF, 0xFF, 0xFF, 0xAA])).pend ∧
      ([0xFF, 0xFF, 0xFF, 0xFF] : List Byte).length ≤ 4 ∧
      (echoing 1 (byteAnswers [0x41, 0xA8, 4, 0xFF, 0xFF, 0xFF, 0xFF, 0xAA])).rx =
        byteAnswers ([0x41] ++ [0xA8, BitVec.ofNat 8 ([0xFF, 0xFF, 0xFF, 0xFF] : List Byte).length] ++
          [0xFF, 0xFF, 0xFF, 0xFF] ++ [0xAA]) ++ []) := by decide
theorem witness_DecReportsFail :
    (receiving [.byte 0xAB]).fault = false ∧ ([] : List Byte).length = (receiving [.byte 0xAB]).pend ∧
    (receiving [.byte 0xAB]).rx = byteAnswers ([] ++ [0xAB]) ++ [] := by decide
theorem witness_DecReportsViolations :
    ((receiving [.byte 0xAA]).rx = byteAnswers ([] ++ [0xAA]) ++ [] ∧ (0xAA : Byte) ≠ 0xAB ∧ (0xAA : Byte) ≠ 0xA8) ∧
    ((receiving (byteAnswers [0xA8, 0])).rx = byteAnswers ([] ++ [0xA8, 0]) ++ [] ∧ ((0 : Byte) = 0)) ∧
    ((receiving (byteAnswers [0xA8, 5])).rx = byteAnswers ([] ++ [0xA8, 5]) ++ [] ∧ 5 ≤ (5 : Byte).toNat) ∧
    (1 ≤ ([0x12, 0x34] : List Byte).length ∧ ([0x12, 0x34] : List Byte).length ≤ 4 ∧
      (receiving (byteAnswers [0xA8, 2, 0x12, 0x34, 0xAB])).rx =
        byteAnswers ([] ++ [0xA8, BitVec.ofNat 8 ([0x12, 0x34] : List Byte).length] ++ [0x12, 0x34] ++ [0xAB]) ++ [] ∧
      (0xAB : Byte) ≠ 0xAA) := by decide
/-- A timeout in each decoder state; in the value at the first byte and at the last. -/
theorem witness_DecReportsTimeouts :
    (([0x41] : List Byte).length ≤ (echoing 2 [.byte 0x41, .timeout]).pend ∧
      (echoing 2 [.byte 0x41, .timeout]).rx = byteAnswers [0x41] ++ .timeout :: []) ∧
    (([] : List Byte).length = (receiving [.byte 0xA8, .timeout]).pend ∧
      (receiving [.byte 0xA8, .timeout]).rx = byteAnswers ([] ++ [0xA8]) ++ .timeout :: []) ∧
    (([] : List Byte).length < 1 ∧
      (receiving [.byte 0xA8, .byte 1, .timeout]).rx =
        byteAnswers ([] ++ [0xA8, BitVec.ofNat 8 1] ++ []) ++ .timeout :: []) ∧
    (([1, 2, 3] : List Byte).length < 4 ∧
      (receiving (byteAnswers [0xA8, 4, 1, 2, 3] ++ [.timeout])).rx =
        byteAnswers ([] ++ [0xA8, BitVec.ofNat 8 4] ++ [1, 2, 3]) ++ .timeout :: []) ∧
    (1 ≤ ([0x12] : List Byte).length ∧
      (receiving [.byte 0xA8, .byte 1, .byte 0x12, .timeout]).rx =
        byteAnswers ([] ++ [0xA8, BitVec.ofNat 8 ([0x12] : List Byte).length] ++ [0x12]) ++ .timeout :: []) := by decide
theorem witness_StepKeepsInvariant : State.reset.Ok ∧ ∃ t, step (State.reset.withFetchWord 16 0x30A5) = .next t :=
  ⟨witness_StatReportsFlagsAndCounter, _, rfl⟩
theorem witness_CrcAgreesWithHistory :
    State.reset.crc = crcFold 0x0000 History.start.wire ∧ ∃ t, step State.reset = .next t := ⟨rfl, _, rfl⟩
theorem witness_EchoCountAgreesWithHistory :
    (echoing 2 []).pend + 1 = 3 ∧ ∃ t, step (echoing 2 []) = .next t := ⟨rfl, _, rfl⟩
theorem witness_ResultsAreOfTheTable :
    (resultListed State.reset.readResult = true ∧ ∃ t, step (facing (.cut 0x30A5 1)) = .next t) ∧
    ((facing (.command 0xF0FF)).inputs = .command 0xF0FF :: [] ∧ ∃ t, step (facing (.command 0xF0FF)) = .next t) ∧
    (oneWire 1 1).fault = false ∧ ∃ t, exec (.txr 0x01) (oneWire 1 1) = .next t :=
  ⟨⟨rfl, _, rfl⟩, ⟨rfl, _, rfl⟩, rfl, _, rfl⟩
theorem witness_RunViewIsOfTheRunAlone : ∃ v, runView [0x7000] (receiving [.byte 0xA9]) = some v := ⟨_, rfl⟩
theorem witness_RepeatableCommands : ∃ t, exec .stat State.reset = .next t := ⟨_, rfl⟩
theorem witness_NoCommandSendsAndReceives :
    (∃ t, exec .txe State.reset = .next t) ∧ Instr.txe.receives = false ∧
    (∃ t, exec .rxrd (receiving [.timeout]) = .next t) ∧ Instr.rxrd.wireBytes = [] :=
  ⟨⟨_, rfl⟩, rfl, ⟨_, rfl⟩, rfl⟩
theorem witness_StreamsOnlyMoveForward : ∃ t, step (facing (.cut 0x30A5 1)) = .next t := ⟨_, rfl⟩
theorem witness_OtherCommandsAlwaysComplete : Instr.stat.receives = false := rfl
/-- The counter just holds the four bytes. -/
theorem witness_CheckCrcExchangeLeavesZero :
    (controller 0x45 0x57).crcChkFramed = false ∧
    ({ oneWire 2 0 with params := ⟨3, .asData⟩, pend := 3, rx := byteAnswers [0, 1, 2, 3, 4, 5, 6, 0xAA] } : State).hasRoom 4 ∧
    ([0, 1, 2, 3, 4, 5, 6] : List Byte).length = 3 + 4 ∧
    byteAnswers [0, 1, 2, 3, 4, 5, 6, 0xAA] = byteAnswers [0, 1, 2, 3, 4, 5, 6] ++ .byte 0xAA :: [] :=
  ⟨rfl, fun _ => by decide, rfl, rfl⟩

end Sys2Proof.Tests
end

/-! PROOFS. The block's invariant `State.Ok` (spec/10_state.md R7, R23, R24, R26, R28): it holds right after reset, and
each kind of command keeps it, so that every step does. -/

namespace Sys2Proof.Machine

theorem State.pendMax_eq_of_params_eq {s t : State} (h : t.params = s.params) : t.pendMax = s.pendMax := by
  rw [State.pendMax, State.pendMax, h]

/-- The invariant speaks of five fields, and nothing else in the state matters to it. -/
theorem State.Ok.of_fields_eq {s t : State} (h : s.Ok) (hparams : t.params = s.params) (how : t.ow = s.ow)
    (hpend : t.pend = s.pend) (hdecoder : t.decoder = s.decoder) (hfault : t.fault = s.fault) : t.Ok where
  params := by rw [hparams]; exact h.params
  pend := by rw [hpend, State.pendMax_eq_of_params_eq hparams]; exact h.pend
  decoder := by rw [hdecoder]; exact h.decoder
  twoWire := by rw [how, hpend]; exact h.twoWire
  overflowed := by rw [hfault, how, hpend, State.pendMax_eq_of_params_eq hparams]; exact h.overflowed

theorem State.Ok.result {s : State} (h : s.Ok) (code : ResultCode) (aux : Nibble) (data : Data) :
    (s.result code aux data).Ok :=
  h.of_fields_eq rfl rfl rfl rfl rfl

theorem State.Ok.withInputs {s : State} (h : s.Ok) (rest : List Input) : (s.withInputs rest).Ok :=
  h.of_fields_eq rfl rfl rfl rfl rfl

/-- R220: the reset input needs the parameters in range and nothing else of the state before. -/
theorem State.resetInput_ok {s : State} (h : s.params.wf = true) : s.resetInput.Ok where
  params := h
  pend := Nat.zero_le _
  decoder := rfl
  twoWire _ := rfl
  overflowed h := nomatch h

/-- R221: a cut leaves the reset registers, however far the command had come. -/
theorem cutByReset_ok {s : State} (h : s.params.wf = true) (k : Nat) (o : Out) : (cutByReset k s o).Ok := by
  rw [cutByReset_frame]
  exact (State.resetInput_ok h).of_fields_eq rfl rfl rfl rfl rfl

/-- R52: bytes for which the counter has room leave it within its bound, and in two-wire mode it stays unused. -/
theorem State.Ok.afterSending {s : State} (h : s.Ok) (hf : s.fault = false) {ws : List Byte}
    (hroom : s.hasRoom ws.length) : (s.afterSending ws).Ok := by
  cases how : s.ow
  · exact h.of_fields_eq rfl rfl (by simp [how]) rfl rfl
  · exact
      { params := h.params
        pend := by simpa [how] using hroom how
        decoder := h.decoder
        twoWire := fun hoff => absurd (how.symm.trans hoff) (by decide)
        overflowed := fun hon => absurd (hf.symm.trans hon) (by decide) }

/-- R26, R52: the byte that overflows finds one-wire mode and a full counter, as a faulted block must. -/
theorem State.Ok.overflow {s : State} (h : s.Ok) {before : List Byte} (how : s.ow = true)
    (hfull : s.pend + before.length = s.pendMax) : (s.afterSending before).raiseFault.Ok := by
  have hpend : (s.afterSending before).pend = s.pendMax := by simp [how, hfull]
  exact
    { params := h.params
      pend := hpend.le
      decoder := h.decoder
      twoWire := fun hoff => absurd (how.symm.trans hoff) (by decide)
      overflowed := fun _ => ⟨how, hpend⟩ }

theorem transmit_keeps_ok {ws : List Byte} {s t : State} (h : s.Ok) (hf : s.fault = false)
    (ht : transmit ws s = .next t) : t.Ok := by
  rcases transmit_cases ws s with ⟨hx, hroom⟩ | ⟨before, w, after, -, how, hfull, hx⟩ <;> rw [hx] at ht <;> cases ht
  · exact (h.afterSending hf (hroom h.pend)).result _ _ _
  · exact (h.overflow how hfull).result _ _ _

/-- A receiving command lowers the counter, ends without a decoder, and may switch `ow` on but never off. -/
theorem exec_receiving_keeps_ok {i : Instr} {s t : State} (h : s.Ok) (hr : i.receives = true) (hf : s.fault = false)
    (ht : exec i s = .next t) : t.Ok := by
  obtain ⟨hpend, hfault, -, hparams⟩ := exec_receiving_flags hr hf ht
  have hdecoder : t.decoder = none := by
    rw [(exec_receive_effect hr hf ht).2, h.decoder, ite_self]
  have how : t.ow = false → s.ow = false := by
    rcases exec_receiving_oneWire hr hf ht with hsame | ⟨_, -, hon, -⟩
    · rw [hsame]; exact id
    · rw [hon]; exact nofun
  exact
    { params := by rw [hparams]; exact h.params
      pend := by
        rw [hpend, State.pendMax_eq_of_params_eq hparams]
        exact (Nat.sub_le _ _).trans h.pend
      decoder := hdecoder
      twoWire := fun hoff => by rw [hpend, h.twoWire (how hoff), Nat.zero_sub]
      overflowed := fun hon => absurd (hon.symm.trans (hfault.trans hf)) (by decide) }

/-- A command that neither sends nor receives keeps `ow` and `pend`, or is an ECLR that clears both. -/
theorem exec_quiet_keeps_ok {i : Instr} {s t : State} (h : s.Ok) (hw : i.wireBytes = []) (hr : i.receives = false)
    (hf : s.fault = false) (ht : exec i s = .next t) : t.Ok := by
  have he := exec_quiet_effect hw hr hf ht
  have hfault : t.fault = false := by
    cases hft : t.fault
    · rfl
    · exact absurd hw (he.overflow hf hft).1
  rcases exec_quiet_echo hw hr ht with ⟨-, -, how, hpend⟩ | ⟨how, hpend⟩
  · exact
      { params := by rw [he.params]; exact h.params
        pend := by rw [hpend]; exact Nat.zero_le _
        decoder := by rw [he.decoder hr]; exact h.decoder
        twoWire := fun _ => hpend
        overflowed := fun hon => absurd (hon.symm.trans hfault) (by decide) }
  · exact h.of_fields_eq he.params how hpend (he.decoder hr) (hfault.trans hf.symm)

/-- R193: a faulted block answers with a result and changes nothing else. -/
theorem exec_faulted_keeps_ok {i : Instr} {s t : State} (h : s.Ok) (hf : s.fault = true) (ht : exec i s = .next t) :
    t.Ok := by
  by_cases hi : i = .stat
  · subst hi; rw [exec_stat] at ht; cases ht; exact h.result _ _ _
  · rw [exec_faulted hf hi] at ht; cases ht; exact h.result _ _ _

/-- Every command keeps the invariant: it is answered by the fault rule, sends, receives, or does neither. -/
theorem exec_keeps_ok {i : Instr} {s t : State} (h : s.Ok) (ht : exec i s = .next t) : t.Ok := by
  cases hf : s.fault
  · by_cases hw : i.wireBytes = []
    · cases hr : i.receives
      · exact exec_quiet_keeps_ok h hw hr hf ht
      · exact exec_receiving_keeps_ok h hr hf ht
    · rw [exec_transmit hf hw] at ht
      exact transmit_keeps_ok h hf ht
  · exact exec_faulted_keeps_ok h hf ht

theorem runWord_keeps_ok {w : Word} {s t : State} (h : s.Ok) (ht : runWord w s = .next t) : t.Ok := by
  rcases runWord_cases w s with ⟨_, -, hx⟩ | ⟨i, -, hx⟩ <;> rw [hx] at ht
  · cases ht; exact h.result _ _ _
  · exact exec_keeps_ok h ht

/-- Settles O46: a step waits, runs a word, or is a reset between words or inside one. -/
theorem stepKeepsInvariant : Obligations.StepKeepsInvariant := by
  intro s t h ht
  rcases step_cases ht with ⟨-, hx⟩ | ⟨w, rest, -, hx⟩ | ⟨rest, -, hx⟩ | ⟨w, k, rest, -, hx⟩
  · cases hx; exact h
  · exact runWord_keeps_ok (h.withInputs rest) hx.symm
  · cases hx; exact State.resetInput_ok (h.withInputs rest).params
  · cases hx; exact cutByReset_ok (h.withInputs rest).params k _

/-- Settles O47: the registers of R220, with the default parameters of R7 and R8 in range. -/
theorem resetMeetsInvariant : Obligations.ResetMeetsInvariant := by
  have hdefault : State.reset.params.wf = true := by decide
  exact State.resetInput_ok hdefault

end Sys2Proof.Machine

/-! PROOFS. What a step does to the two streams, the echo counter, the fault flag and the unframer's flag, and the two
histories the CRC and the counter agree with (spec/10_state.md R23, R25, R26, R31 to R33). -/

namespace Sys2Proof.Machine

/-! ### The streams (R31, R221) -/

theorem sentBytes_eq {s t : State} {sent : List Byte} (h : t.tx = s.tx ++ sent) : t.tx.drop s.tx.length = sent := by
  rw [h, List.drop_left]

/-- R221: a cut only appends to the send stream and only takes from the front of the receive stream. -/
theorem cutByReset_streams (k : Nat) (s : State) (o : Out) :
    s.tx <+: (cutByReset k s o).tx ∧ (cutByReset k s o).rx <:+ s.rx ∧ (cutByReset k s o).params = s.params := by
  cases o with
  | next t => exact ⟨List.prefix_append _ _, List.drop_suffix _ _, rfl⟩
  | fault e => exact ⟨List.prefix_rfl, List.drop_suffix _ _, rfl⟩
  | refused e => exact ⟨List.prefix_rfl, List.suffix_rfl, rfl⟩

/-- Settles O52: only a command word moves a stream, or the part of it that a reset leaves standing. -/
theorem streamsOnlyMoveForward : Obligations.StreamsOnlyMoveForward := by
  intro s t ht
  rcases step_cases ht with ⟨-, hx⟩ | ⟨w, rest, -, hx⟩ | ⟨rest, -, hx⟩ | ⟨w, k, rest, -, hx⟩
  · cases hx; exact ⟨List.prefix_rfl, List.suffix_rfl, rfl⟩
  · obtain ⟨sent, taken, htx, hrx, hparams, -⟩ := runWord_streams hx.symm
    exact ⟨⟨sent, htx.symm⟩, ⟨taken, hrx.symm⟩, hparams⟩
  · cases hx; exact ⟨List.prefix_rfl, List.suffix_rfl, rfl⟩
  · cases hx; exact cutByReset_streams k (s.withInputs rest) _

/-! ### The fault (R26, R193) -/

/-- R193: while faulted a command writes its result and nothing else, STAT included. -/
theorem exec_faulted_frame {i : Instr} {s t : State} (hf : s.fault = true) (h : exec i s = .next t) :
    t = { s with resCode := t.resCode, resData := t.resData } := by
  by_cases hi : i = .stat
  · subst hi; rw [exec_stat] at h; cases h; rfl
  · rw [exec_faulted hf hi] at h; cases h; rfl

theorem runWord_sticky {w : Word} {s t : State} (hf : s.fault = true) (h : runWord w s = .next t) :
    t.fault = true := by
  rcases runWord_cases w s with ⟨_, -, hx⟩ | ⟨i, -, hx⟩ <;> rw [hx] at h
  · cases h; exact hf
  · rw [exec_faulted_frame hf h]; exact hf

/-- Settles O11: the overflowing send raises the fault, `ExecEffect.overflow` says no other does, and of the four things
a step can do only a reset lowers it. -/
theorem faultIsSticky : Obligations.FaultIsSticky := by
  refine ⟨fun w s how hp => wireSend_overflows how hp w, fun i s hf hi => exec_faulted hf hi, ?_, ?_⟩
  · intro s t hf ht hoff
    rcases step_cases ht with ⟨-, hx⟩ | ⟨w, rest, -, hx⟩ | ⟨rest, hin, -⟩ | ⟨w, k, rest, hin, -⟩
    · cases hx; exact absurd (hoff.symm.trans hf) (by decide)
    · have hon := runWord_sticky (s := s.withInputs rest) hf hx.symm
      exact absurd (hoff.symm.trans hon) (by decide)
    · exact ⟨rest, .inl hin⟩
    · exact ⟨rest, .inr ⟨w, k, hin⟩⟩
  · intro i s t hf ht hon
    obtain ⟨sent, taken, he⟩ := exec_effect ht
    obtain ⟨hw, how, hp, hcode, hdata⟩ := he.overflow hf hon
    exact ⟨how, hp, hw, hcode, hdata⟩

/-! ### One-wire mode and the echo counter (R23, R33) -/

/-- Everything a command that sent `sent` did to `ow` and `pend`. -/
inductive EchoEffect (i : Instr) (s t : State) (sent : List Byte) : Prop where
  /-- An ECLR that ran (R154). -/
  | cleared (eclr : i = .eclr) (ran : s.fault = false) (ow : t.ow = false) (pend : t.pend = 0)
  /-- A receive that ran: it discarded the echoes due, and an EPROBE that matched set `ow` (R54, R153). -/
  | received (receives : i.receives = true) (ran : s.fault = false) (sentNone : sent = [])
      (pend : t.pend = s.pend - s.echoesDue)
      (ow : t.ow = s.ow ∨ ∃ ref, i = .eprobe ref ∧ t.ow = true ∧ t.resCode = 0x02 ∧ t.resData = ref.setWidth 32)
  /-- Any other command, and any command while faulted: only the bytes sent are counted (R52). -/
  | counted (other : s.fault = true ∨ i.receives = false ∧ i ≠ .eclr) (ow : t.ow = s.ow)
      (pend : t.pend = if s.ow then s.pend + sent.length else s.pend)

theorem exec_echoEffect {i : Instr} {s t : State} {sent : List Byte} (h : exec i s = .next t)
    (htx : t.tx = s.tx ++ sent) : EchoEffect i s t sent := by
  obtain ⟨sent', taken, he⟩ := exec_effect h
  obtain rfl : sent' = sent := List.append_cancel_left (he.tx.symm.trans htx)
  cases hf : s.fault
  · by_cases hw : i.wireBytes = []
    · obtain rfl : sent' = [] := List.prefix_nil.1 (hw ▸ he.named)
      cases hr : i.receives
      · by_cases hi : i = .eclr
        · subst hi; rw [exec_eclr hf] at h; cases h; exact .cleared rfl hf rfl rfl
        · rcases exec_quiet_echo hw hr h with ⟨heclr, -⟩ | ⟨how, hp⟩
          · exact absurd heclr hi
          · exact .counted (.inr ⟨hr, hi⟩) how (by simp [hp])
      · exact .received hr hf rfl (exec_receiving_flags hr hf h).1 (exec_receiving_oneWire hr hf h)
    · obtain ⟨how, -, hp⟩ := he.sends hw
      refine .counted (.inr ⟨?_, ?_⟩) how hp
      · cases hr : i.receives
        · rfl
        · exact absurd (wireBytes_of_receives hr) hw
      · rintro rfl; exact hw rfl
  · obtain rfl : sent' = [] := by
      have := he.tx
      rw [exec_faulted_frame hf h] at this
      simpa using this
    rw [exec_faulted_frame hf h]
    exact .counted (.inl hf) rfl (by simp)

/-- Settles O41: each clause read off the three things a command can do to `ow` and `pend`. -/
theorem oneWireFlagRule : Obligations.OneWireFlagRule := by
  intro i s t h
  obtain ⟨sent, taken, he⟩ := exec_effect h
  refine ⟨fun hoff hon => ?sets, fun hon hoff => ?clears, fun hoff => ?neverUp, fun sent' htx hw => ?counts⟩
  case sets =>
    cases exec_echoEffect h he.tx with
    | cleared _ _ how _ => rw [how] at hon; cases hon
    | received _ _ _ _ how =>
      rcases how with how | ⟨ref, hi, -, hcode, hdata⟩
      · rw [how, hoff] at hon; cases hon
      · exact ⟨ref, hi, hcode, hdata⟩
    | counted _ how _ => rw [how, hoff] at hon; cases hon
  case clears =>
    cases exec_echoEffect h he.tx with
    | cleared hi _ _ _ => exact hi
    | received _ _ _ _ how =>
      rcases how with how | ⟨_, -, how, -⟩
      · rw [how, hon] at hoff; cases hoff
      · rw [how] at hoff; cases hoff
    | counted _ how _ => rw [how, hon] at hoff; cases hoff
  case neverUp =>
    cases exec_echoEffect h he.tx with
    | cleared _ _ _ hp => omega
    | received _ _ _ hp _ => omega
    | counted _ _ hp => simp [hp, hoff]
  case counts =>
    obtain rfl : sent' = sent := List.append_cancel_left (htx.symm.trans he.tx)
    exact (he.sends hw).2.2

/-! ### The histories (R32, R33) -/

/-- Beside the machine a step keeps the history, adds a command to it, or starts it again with the registers of
reset. -/
theorem step_history_cases (h : History) {s t : State} (ht : step s = .next t) :
    (h.step s t = h ∧ t.crc = s.crc ∧ t.pend = s.pend) ∨
    (∃ i rest, h.step s t = h.after i (s.withInputs rest) t ∧ exec i (s.withInputs rest) = .next t) ∨
    (h.step s t = .start ∧ t.crc = 0x0000 ∧ t.pend = 0) := by
  rcases step_cases ht with ⟨hin, hx⟩ | ⟨w, rest, hin, hx⟩ | ⟨rest, hin, hx⟩ | ⟨w, k, rest, hin, hx⟩
  · cases hx; exact .inl ⟨by simp [History.step, hin], rfl, rfl⟩
  · rcases runWord_cases w (s.withInputs rest) with ⟨e, hd, hr⟩ | ⟨i, hd, hr⟩ <;> rw [hr] at hx
    · cases hx; exact .inl ⟨by simp [History.step, hin, hd], rfl, rfl⟩
    · exact .inr (.inl ⟨i, rest, by simp [History.step, hin, hd, History.after], hx.symm⟩)
  · cases hx; exact .inr (.inr ⟨by simp [History.step, hin], rfl, rfl⟩)
  · cases hx
    rw [cutByReset_frame]
    exact .inr (.inr ⟨by simp [History.step, hin], rfl, rfl⟩)

section

variable (h : History) {i : Instr} {s t : State} {sent : List Byte}

theorem History.after_wire (htx : t.tx = s.tx ++ sent) :
    (h.after i s t).wire = if i = .crcclr ∧ s.fault = false then [] else h.wire ++ sent := by
  simp [History.after, sentBytes_eq htx, and_comm]

/-- An ECLR that ran starts the two counts again (R154). -/
theorem History.after_eclr (hf : s.fault = false) :
    (h.after .eclr s t).counted = 0 ∧ (h.after .eclr s t).discarded = 0 := by
  simp [History.after, hf]

/-- A receiving command that ran and sent nothing counts the echoes it discarded (R54). -/
theorem History.after_receiving (hr : i.receives = true) (hf : s.fault = false) (htx : t.tx = s.tx) :
    (h.after i s t).counted = h.counted ∧ (h.after i s t).discarded = h.discarded + s.echoesDue := by
  have hi : i ≠ .eclr := by rintro rfl; cases hr
  simp [History.after, hf, hr, hi, htx, State.echoesDue]

/-- Any other command counts the bytes it sent in one-wire mode (R52). -/
theorem History.after_counting (ho : s.fault = true ∨ i.receives = false ∧ i ≠ .eclr) (htx : t.tx = s.tx ++ sent) :
    (h.after i s t).counted = h.counted + (if s.ow then sent.length else 0) ∧
      (h.after i s t).discarded = h.discarded := by
  rcases ho with hf | ⟨hr, hi⟩
  · simp [History.after, hf, sentBytes_eq htx]
  · simp [History.after, hr, hi, sentBytes_eq htx]

end

/-- R32 for one command: a CRCCLR that ran starts CRC and history again, and any other folds in what it sent. -/
theorem exec_keeps_crcHistory {h : History} {i : Instr} {s t : State} (hs : s.crc = crcFold 0x0000 h.wire)
    (hx : exec i s = .next t) : t.crc = crcFold 0x0000 (h.after i s t).wire := by
  obtain ⟨sent, taken, he⟩ := exec_effect hx
  rw [he.crc, h.after_wire he.tx]
  split
  · rfl
  · rw [hs, crcFold_append]

/-- R33 for one command: a receive moves the echoes due from `pend` to the discarded ones, and a send counts each byte in
`pend` as in the history. -/
theorem exec_keeps_echoHistory {h : History} {i : Instr} {s t : State} (hs : s.pend + h.discarded = h.counted)
    (hx : exec i s = .next t) : t.pend + (h.after i s t).discarded = (h.after i s t).counted := by
  obtain ⟨sent, taken, he⟩ := exec_effect hx
  cases exec_echoEffect hx he.tx with
  | cleared hi hf _ hp =>
    subst hi
    obtain ⟨hc, hd⟩ := h.after_eclr (t := t) hf
    rw [hc, hd, hp]
  | received hr hf hsent hp _ =>
    obtain ⟨hc, hd⟩ := h.after_receiving hr hf (by rw [he.tx, hsent, List.append_nil])
    have hdue : s.echoesDue ≤ s.pend := Nat.min_le_left _ _
    omega
  | counted ho _ hp =>
    obtain ⟨hc, hd⟩ := h.after_counting ho he.tx
    rw [hc, hd, hp]
    split <;> omega

/-- Settles O48: a step leaves CRC and history alone, resets both, or runs one command. -/
theorem crcAgreesWithHistory : Obligations.CrcAgreesWithHistory := by
  refine ⟨rfl, fun h s t hs ht => ?_⟩
  rcases step_history_cases h ht with ⟨hh, hcrc, -⟩ | ⟨i, rest, hh, hx⟩ | ⟨hh, hcrc, -⟩ <;> rw [hh]
  · rw [hcrc, hs]
  · exact exec_keeps_crcHistory (s := s.withInputs rest) hs hx
  · rw [hcrc]; rfl

/-- Settles O49: a step leaves counter and history alone, resets both, or runs one command. -/
theorem echoCountAgreesWithHistory : Obligations.EchoCountAgreesWithHistory := by
  refine ⟨rfl, fun h s t hs ht => ?_⟩
  rcases step_history_cases h ht with ⟨hh, -, hpend⟩ | ⟨i, rest, hh, hx⟩ | ⟨hh, -, hpend⟩ <;> rw [hh]
  · rw [hpend, hs]
  · exact exec_keeps_echoHistory (s := s.withInputs rest) hs hx
  · rw [hpend]; rfl

end Sys2Proof.Machine

/-! PROOFS. Receiving commands complete, and what a command does not depend on: the unframer's flag (spec/10_state.md
R25, R106) and the answers it leaves unread (R31, R179). -/

namespace Sys2Proof.Machine

/-! ### Receiving commands complete (R53, R64) -/

/-- A one-byte receive hangs only where the receive stream is all bytes, and every one of them an echo. -/
theorem receiveOne_hangs {onByte : Byte → State → State} {s : State} {e : Fault}
    (h : receiveOne onByte s = .fault e) : Answer.timeout ∉ s.rx ∧ s.rx.length ≤ s.pend := by
  rcases receiveOne_cases onByte s with ⟨_, _, _, _, _, hx⟩ | ⟨_, _, _, _, hx⟩ | ⟨es, hrx, hl, -⟩
  · rw [hx] at h; cases h
  · rw [hx] at h; cases h
  · rw [hrx, byteAnswers_length]; exact ⟨timeout_not_mem_byteAnswers es, hl⟩

/-- A receiving command hangs only where the receive stream is all bytes, and these are too few for the echoes and the
longest reply. -/
theorem exec_receiving_hangs {i : Instr} {s : State} {e : Fault} (hr : i.receives = true) (hf : s.fault = false)
    (h : exec i s = .fault e) : Answer.timeout ∉ s.rx ∧ s.rx.length < s.pend + 7 := by
  cases i <;> simp only [Instr.receives, reduceCtorEq] at hr
  case rxrd =>
    rw [exec_rxrd hf] at h
    obtain ⟨hnone, hlen⟩ := receiveOne_hangs h
    exact ⟨hnone, by omega⟩
  case eprobe ref =>
    rw [exec_eprobe hf] at h
    obtain ⟨hnone, hlen⟩ := receiveOne_hangs h
    exact ⟨hnone, by omega⟩
  case dec =>
    rw [exec_dec hf] at h
    exact decRun_hangs decoderInit_fits h

/-- Settles O37: under either hypothesis a receiving command does not hang, and then `exec_receive_effect` says what it
leaves. -/
theorem receivingCommandsComplete : Obligations.ReceivingCommandsComplete := by
  intro i s hr hf henough
  cases hx : exec i s with
  | fault e =>
    obtain ⟨hnone, hlen⟩ := exec_receiving_hangs hr hf hx
    rcases henough with hmem | hle
    · exact absurd hmem hnone
    · omega
  | refused r => exact absurd hx (exec_ne_refused i s r)
  | next t =>
    obtain ⟨⟨hframe, htook⟩, hdecoder⟩ := exec_receive_effect hr hf hx
    obtain ⟨hpend, -⟩ := exec_receiving_flags hr hf hx
    refine ⟨t, rfl, by rw [hpend]; exact hframe, fun hne => ?_, hpend ▸ Nat.sub_le _ _, htook, hdecoder⟩
    rcases exec_receiving_oneWire hr hf hx with hsame | ⟨ref, hi, -⟩
    · exact absurd hsame hne
    · exact ⟨ref, hi⟩

/-! ### What a command does not look at -/

/-- The same state but for the unframer's flag, and with the answers `more` after those it has. -/
def State.beside (s : State) (e : Bool) (more : List Answer) : State := { s with esc := e, rx := s.rx ++ more }

/-- The same change to the state in which a row of sends ended. -/
def SendEnd.beside (r : SendEnd) (e : Bool) (more : List Answer) : SendEnd :=
  match r with
  | .sent s => .sent (s.beside e more)
  | .aborted s => .aborted (s.beside e more)

section

variable (e : Bool) (more : List Answer)

theorem State.beside_own_esc (s : State) : s.beside s.esc more = { s with rx := s.rx ++ more } := rfl

theorem State.beside_no_answers (s : State) : s.beside e [] = { s with esc := e } := by
  rw [State.beside, List.append_nil]

theorem State.beside_stream {s : State} {before : List Answer} {a : Answer} {rest : List Answer}
    (h : s.rx = before ++ a :: rest) : (s.beside e more).rx = before ++ a :: (rest ++ more) := by
  rw [State.beside, h]; simp

/-- A send looks at `ow`, `pend` and the parameters only (R52). -/
theorem wireSendAll_beside (ws : List Byte) (s : State) :
    wireSendAll ws (s.beside e more) = (wireSendAll ws s).beside e more := by
  induction ws generalizing s with
  | nil => rfl
  | cons w ws ih =>
    by_cases ho : s.ow = true ∧ s.pend = s.pendMax
    · obtain ⟨how, hp⟩ := ho
      have hx : wireSend w (s.beside e more) = .aborted (s.raiseFault.beside e more) :=
        wireSend_overflows (s := s.beside e more) how hp w
      simp only [wireSendAll, hx, wireSend_overflows how hp, SendEnd.beside]
    · have hx : wireSend w (s.beside e more) = .sent ((s.pushWire w).beside e more) :=
        wireSend_fits (s := s.beside e more) ho w
      simp only [wireSendAll, hx, wireSend_fits ho, ih]

theorem transmit_beside {ws : List Byte} {s t : State} (h : transmit ws s = .next t) :
    transmit ws (s.beside e more) = .next (t.beside e more) := by
  rw [transmit, wireSendAll_beside]
  rw [transmit] at h
  cases hx : wireSendAll ws s <;> rw [hx] at h <;> cases h <;> rfl

/-- A one-byte receive reads the answers up to the one that ends it, and looks at `pend` only (R54). -/
theorem receiveOne_beside {onByte : Byte → State → State}
    (hb : ∀ b s, onByte b (s.beside e more) = (onByte b s).beside e more) {s t : State}
    (h : receiveOne onByte s = .next t) : receiveOne onByte (s.beside e more) = .next (t.beside e more) := by
  rcases receiveOne_cases onByte s with ⟨es, b, rest, hrx, hl, hx⟩ | ⟨es, rest, hrx, hl, hx⟩ | ⟨_, _, _, hx⟩ <;>
    rw [hx] at h <;> cases h
  · rw [receiveOne_byte (State.beside_stream e more hrx) hl, ← hb]; rfl
  · rw [receiveOne_timeout (State.beside_stream e more hrx) hl]; rfl

theorem probeByte_beside (ref b : Byte) (s : State) :
    probeByte ref b (s.beside e more) = (probeByte ref b s).beside e more := by
  unfold probeByte; split <;> rfl

/-- A DEC reads the answers up to the one that ends it (R179). -/
theorem decRun_beside {d : Decoder} {s t : State} (h : decRun d s = .next t) :
    decRun d (s.beside e more) = .next (t.beside e more) := by
  refine decRun_induction
    (P := fun d s o => ∀ t, o = .next t → decRun d (s.beside e more) = .next (t.beside e more))
    ?ends ?goesOn ?timedOut ?unanswered d s t h
  case ends =>
    intro d s es b rest code aux data hrx hl hd t ht
    cases ht
    rw [decRun_surfaced (State.beside_stream e more hrx) hl, hd]; rfl
  case goesOn =>
    intro d d' s es b rest o hrx hl hd ih t ht
    rw [decRun_surfaced (State.beside_stream e more hrx) hl, hd]
    exact ih t ht
  case timedOut =>
    intro d s es rest hrx hl t ht
    cases ht
    rw [decRun_timeout (State.beside_stream e more hrx) hl]; rfl
  case unanswered => intro d s es _ _ t ht; cases ht

/-- R25, R106, R179: no command but UNF, UNFCLR and STAT looks at `esc`, and none at an answer it does not read. -/
theorem exec_beside {i : Instr} {s t : State} (hunf : ∀ b, i ≠ .unf b) (hclr : i ≠ .unfclr) (hstat : i ≠ .stat)
    (h : exec i s = .next t) : exec i (s.beside e more) = .next (t.beside e more) := by
  cases hf : s.fault
  · have hf' : (s.beside e more).fault = false := hf
    by_cases hw : i.wireBytes = []
    · cases i
      case unf b => exact absurd rfl (hunf b)
      case unfclr => exact absurd rfl hclr
      case stat => exact absurd rfl hstat
      case txd d => exact absurd hw (enc_ne_nil d)
      case txr | txc | txe => cases hw
      case nop => rw [exec_nop hf] at h; cases h; exact exec_nop hf'
      case crcclr => rw [exec_crcclr hf] at h; cases h; exact exec_crcclr hf'
      case crcrd => rw [exec_crcrd hf] at h; cases h; exact exec_crcrd hf'
      case eclr => rw [exec_eclr hf] at h; cases h; exact exec_eclr hf'
      case rxrd =>
        rw [exec_rxrd hf] at h; rw [exec_rxrd hf']
        exact receiveOne_beside e more (fun _ _ => rfl) h
      case eprobe ref =>
        rw [exec_eprobe hf] at h; rw [exec_eprobe hf']
        exact receiveOne_beside e more (probeByte_beside e more ref) h
      case dec =>
        rw [exec_dec hf] at h; rw [exec_dec hf']
        exact decRun_beside e more h
    · rw [exec_transmit hf hw] at h; rw [exec_transmit hf' hw]
      exact transmit_beside e more h
  · rw [exec_faulted hf hstat] at h; cases h
    exact exec_faulted (s := s.beside e more) hf hstat

end

/-! ### The unframer's flag (R25, R106) -/

/-- A command that does not look at `esc` leaves it, and so does STAT. -/
theorem exec_keeps_esc {i : Instr} {s t : State} (hunf : ∀ b, i ≠ .unf b) (hclr : i ≠ .unfclr)
    (h : exec i s = .next t) : t.esc = s.esc := by
  by_cases hstat : i = .stat
  · subst hstat; rw [exec_stat] at h; cases h; rfl
  · have hx := exec_beside s.esc [] hunf hclr hstat h
    rw [State.beside_no_answers, State.beside_no_answers] at hx
    have ht : t = { t with esc := s.esc } := Host.Outcome.next.inj (h.symm.trans hx)
    rw [ht]

theorem exec_changes_esc {i : Instr} {s t : State} (h : exec i s = .next t) (hne : t.esc ≠ s.esc) :
    (∃ b, i = .unf b) ∨ i = .unfclr := by
  by_cases hunf : ∃ b, i = .unf b
  · exact .inl hunf
  · by_cases hclr : i = .unfclr
    · exact .inr hclr
    · exact absurd (exec_keeps_esc (not_exists.1 hunf) hclr h) hne

/-- R107: of the bytes UNF may take, only ESCAPE opens a pair. -/
theorem unfNext_sets_esc {b : Byte} {s : State} (h : (unfNext b s).esc = true) (hs : s.esc = false) :
    b = tokEscape := by
  by_contra hb
  have hidle : (unfIdle b s).esc = s.esc := by
    rw [unfIdle, if_neg hb]; split <;> rfl
  rw [unfNext, hs, if_neg (by decide), hidle, hs] at h
  cases h

/-- Settles O32: `exec_beside` covers every command but UNF, UNFCLR and STAT, and UNF sets the flag on an ESCAPE
alone. -/
theorem unframerIsSeparate : Obligations.UnframerIsSeparate := by
  refine ⟨fun i s t h hne => exec_changes_esc h hne, fun i s t h hoff hon => ?_, fun i s t e hunf hclr hstat h => ?_⟩
  · have hrun : s.fault = false := by
      cases hf : s.fault
      · rfl
      · rw [exec_faulted_frame hf h, hoff] at hon; cases hon
    rcases exec_changes_esc h (by rw [hon, hoff]; decide) with ⟨b, rfl⟩ | rfl
    · rw [exec_unf hrun] at h; cases h
      rw [unfNext_sets_esc hon hoff]
    · rw [exec_unfclr hrun] at h; cases h; cases hon
  · have hx := exec_beside e [] hunf hclr hstat h
    rwa [State.beside_no_answers, State.beside_no_answers] at hx

/-! ### Unread answers (R31, R179) -/

section

variable (more : List Answer)

theorem unfIdle_beside (b : Byte) (s : State) :
    unfIdle b (s.beside s.esc more) = (unfIdle b s).beside (unfIdle b s).esc more := by
  unfold unfIdle
  split
  · rfl
  · split <;> rfl

theorem unfFollower_beside (b : Byte) (s : State) :
    unfFollower b (s.beside s.esc more) = (unfFollower b s).beside (unfFollower b s).esc more := by
  unfold unfFollower
  dsimp only [State.beside, State.setEsc_params]
  split
  · cases s.params.a525 <;> rfl
  · split <;> rfl

/-- UNF looks at no answer. -/
theorem unfNext_beside (b : Byte) (s : State) :
    unfNext b (s.beside s.esc more) = (unfNext b s).beside (unfNext b s).esc more := by
  have hesc : (s.beside s.esc more).esc = s.esc := rfl
  unfold unfNext
  rw [hesc]
  split
  · exact unfFollower_beside more b s
  · exact unfIdle_beside more b s

/-- No command looks at an answer it does not read: the three that `exec_beside` leaves out read none. -/
theorem exec_more_answers {i : Instr} {s t : State} (h : exec i s = .next t) :
    exec i (s.beside s.esc more) = .next (t.beside t.esc more) := by
  by_cases hstat : i = .stat
  · subst hstat; rw [exec_stat] at h; cases h; rfl
  cases hf : s.fault
  · have hf' : (s.beside s.esc more).fault = false := hf
    by_cases hclr : i = .unfclr
    · subst hclr; rw [exec_unfclr hf] at h; cases h; exact exec_unfclr hf'
    by_cases hunf : ∃ b, i = .unf b
    · obtain ⟨b, rfl⟩ := hunf
      rw [exec_unf hf] at h; cases h
      rw [exec_unf hf']
      exact congrArg Host.Outcome.next (unfNext_beside more b s)
    · rw [exec_keeps_esc (not_exists.1 hunf) hclr h]
      exact exec_beside s.esc more (not_exists.1 hunf) hclr hstat h
  · rw [exec_faulted hf hstat] at h; cases h
    exact exec_faulted (s := s.beside s.esc more) hf hstat

end

/-- Settles O40: appending answers is `State.beside` with the flag as it is. -/
theorem unreadAnswersStay : Obligations.UnreadAnswersStay := by
  intro i s t more h
  rw [← State.beside_own_esc, ← State.beside_own_esc]
  exact exec_more_answers more h

end Sys2Proof.Machine

/-! PROOFS. A command word or a cut as one step, `WireSend`, and where a command stops (spec/20_memory.md R52, R53, R58,
R64; spec/70_reset_and_hazards.md R221). -/

namespace Sys2Proof.Machine

/-! ### One step (R58, R60, R221) -/

theorem step_command {s : State} {w : Word} {rest : List Input} (h : s.inputs = .command w :: rest) :
    step s = runWord w (s.withInputs rest) := by
  rw [step, nextInput, h]; rfl

theorem step_cut {s : State} {w : Word} {k : Nat} {rest : List Input} (h : s.inputs = .cut w k :: rest) :
    step s = .next (cutByReset k (s.withInputs rest) (runWord w (s.withInputs rest))) := by
  rw [step, nextInput, h]; rfl

/-- Settles O5: the step takes the word from the list, and the word is legal. -/
theorem stepRunsDecodedCommand : Obligations.StepRunsDecodedCommand := by
  intro s w rest i hin hd
  rw [step_command hin, runWord_ok hd]; rfl

/-- R221: of a command that would have completed, the first `k` bytes sent and the first `k` answers taken stand. -/
theorem cutByReset_next (k : Nat) {s u : State} {sent : List Byte} {taken : List Answer}
    (htx : u.tx = s.tx ++ sent) (hrx : s.rx = taken ++ u.rx) :
    (cutByReset k s (.next u)).tx = s.tx ++ sent.take k ∧
      (cutByReset k s (.next u)).rx = taken.drop k ++ u.rx := by
  have hcount : s.rx.length - u.rx.length = taken.length := by simp [hrx]
  have hdrop : taken.drop (min k taken.length) = taken.drop k := by
    rcases Nat.le_total k taken.length with hk | hk
    · rw [Nat.min_eq_left hk]
    · rw [Nat.min_eq_right hk, List.drop_length, List.drop_eq_nil_of_le hk]
  constructor
  · simp only [cutByReset, sentBytes_eq htx]
  · simp only [cutByReset, hcount]
    rw [hrx, List.drop_append_of_le_length (Nat.min_le_right _ _), hdrop]

/-- Settles O10: `cutByReset_frame` gives the registers, `runWord_streams` what the whole command would have done on the
wire, and `cutByReset_next` the part of it that stands. -/
theorem resetCutsRunningCommand : Obligations.ResetCutsRunningCommand := by
  intro s w k rest hin
  refine ⟨_, step_cut hin, cutByReset_frame k (s.withInputs rest) _, fun u hu => ?completes, fun e he => ?hangs⟩
  case completes =>
    have hrun : runWord w (s.withInputs rest) = .next u := hu
    obtain ⟨sent, taken, htx, hrx, -, -⟩ := runWord_streams hrun
    obtain ⟨hsent, htaken⟩ := cutByReset_next k htx hrx
    rw [hrun]
    exact ⟨sent, taken, htx, hrx, hsent, htaken⟩
  case hangs =>
    have hrun : runWord w (s.withInputs rest) = .fault e := he
    rw [hrun]
    exact ⟨rfl, rfl⟩

/-! ### `WireSend` (R52) -/

/-- Settles O21: `wireSend_overflows` and `wireSend_fits` are the two cases. -/
theorem wireSendBookkeeping : Obligations.WireSendBookkeeping := by
  intro w s
  by_cases h : s.ow = true ∧ s.pend = 2 ^ s.params.pendW - 1
  · rw [if_pos h]; exact wireSend_overflows h.1 h.2 w
  · rw [if_neg h]; exact wireSend_fits h w

/-! ### Which commands complete (R55, R64) -/

theorem transmit_completes (ws : List Byte) (s : State) : ∃ t, transmit ws s = .next t := by
  rcases transmit_cases ws s with ⟨h, -⟩ | ⟨_, _, _, -, -, -, h⟩ <;> exact ⟨_, h⟩

/-- R193: a faulted block answers every command. -/
theorem exec_faulted_completes {i : Instr} {s : State} (hf : s.fault = true) : ∃ t, exec i s = .next t := by
  by_cases hi : i = .stat
  · subst hi; exact ⟨_, exec_stat s⟩
  · exact ⟨_, exec_faulted hf hi⟩

/-- A command that does not receive completes: it is answered by the fault rule, sends, or does neither. -/
theorem exec_completes {i : Instr} (hr : i.receives = false) (s : State) : ∃ t, exec i s = .next t := by
  cases hf : s.fault
  · by_cases hw : i.wireBytes = []
    · cases i
      case rxrd | eprobe | dec => cases hr
      case txd d => exact absurd hw (enc_ne_nil d)
      case txr | txc | txe => cases hw
      case nop => exact ⟨_, exec_nop hf⟩
      case crcclr => exact ⟨_, exec_crcclr hf⟩
      case crcrd => exact ⟨_, exec_crcrd hf⟩
      case eclr => exact ⟨_, exec_eclr hf⟩
      case unf b => exact ⟨_, exec_unf hf b⟩
      case unfclr => exact ⟨_, exec_unfclr hf⟩
      case stat => exact ⟨_, exec_stat s⟩
    · rw [exec_transmit hf hw]; exact transmit_completes _ s
  · exact exec_faulted_completes hf

/-- Settles O53: `exec_effect` says what a completed command leaves alone. -/
theorem otherCommandsAlwaysComplete : Obligations.OtherCommandsAlwaysComplete := by
  intro i s hr
  obtain ⟨t, ht⟩ := exec_completes hr s
  obtain ⟨sent, taken, he⟩ := exec_effect ht
  have hrx : t.rx = s.rx := by rw [he.rx, he.takesNone hr]; rfl
  exact ⟨t, ht, hrx, he.inputs, he.params, he.decoder hr⟩

/-! ### Where a command stops (R53, R64, R215) -/

theorem exec_fault_receives {i : Instr} {s : State} {e : Fault} (h : exec i s = .fault e) :
    i.receives = true ∧ s.fault = false := by
  constructor
  · cases hr : i.receives
    · obtain ⟨t, ht⟩ := exec_completes hr s
      rw [ht] at h; cases h
    · rfl
  · cases hf : s.fault
    · rfl
    · obtain ⟨t, ht⟩ := exec_faulted_completes (i := i) hf
      rw [ht] at h; cases h

/-- The receive stream is no more than the pending echoes. -/
def State.onlyEchoes (s : State) : Prop := ∃ es : List Byte, s.rx = byteAnswers es ∧ es.length ≤ s.pend

theorem receiveOne_hangs_iff {onByte : Byte → State → State} {s : State} {e : Fault} :
    receiveOne onByte s = .fault e ↔ s.onlyEchoes := by
  constructor
  · intro h
    rcases receiveOne_cases onByte s with ⟨_, _, _, _, _, hx⟩ | ⟨_, _, _, _, hx⟩ | ⟨es, hrx, hl, -⟩
    · rw [hx] at h; cases h
    · rw [hx] at h; cases h
    · exact ⟨es, hrx, hl⟩
  · rintro ⟨es, hrx, hl⟩
    cases e
    exact receiveOne_unanswered hrx hl

/-- The surfaced bytes with which a reply of 1 to 4 value bytes goes on from the registers `d` (R173 to R176). -/
def Decoder.ReplyFrom (d : Decoder) (r : List Byte) : Prop :=
  match d.dst with
  | .sToken => ∃ vs : List Byte, 1 ≤ vs.length ∧ vs.length ≤ 4 ∧
      r = 0xA8 :: BitVec.ofNat 8 vs.length :: (vs ++ [0xAA])
  | .sLen => ∃ vs : List Byte, 1 ≤ vs.length ∧ vs.length ≤ 4 ∧ r = BitVec.ofNat 8 vs.length :: (vs ++ [0xAA])
  | .sAcc => ∃ vs : List Byte, vs.length = d.drem.toNat ∧ r = vs ++ [0xAA]
  | .sTerm => r = [0xAA]

/-- Every state waits for at least one byte more. -/
theorem Decoder.exists_replyFrom (d : Decoder) : ∃ b r, d.ReplyFrom (b :: r) := by
  obtain ⟨dst, dlen, drem, dval⟩ := d
  cases dst
  case sToken => exact ⟨_, _, [0], by decide, by decide, rfl⟩
  case sLen => exact ⟨_, _, [0], by decide, by decide, rfl⟩
  case sTerm => exact ⟨_, _, rfl⟩
  case sAcc =>
    cases hn : drem.toNat with
    | zero => exact ⟨0xAA, [], [], hn.symm, rfl⟩
    | succ n => exact ⟨0, List.replicate n 0 ++ [0xAA], List.replicate (n + 1) 0, by simp [hn], rfl⟩

/-- A byte on which DEC goes on is the next one of a reply. -/
theorem decTransition_replyFrom {b : Byte} {d d' : Decoder} {r : List Byte} (hd : d.Fits)
    (ht : decTransition b d = .goOn d') (hr : d'.ReplyFrom r) : d.ReplyFrom (b :: r) := by
  obtain ⟨dst, dlen, drem, dval⟩ := d
  cases dst
  case sToken =>
    simp only [decTransition, tToken, decViol] at ht
    split at ht
    · cases ht
    · split at ht
      · rename_i hb
        cases ht
        obtain ⟨vs, h1, h4, rfl⟩ := hr
        exact ⟨vs, h1, h4, by rw [hb]⟩
      · cases ht
  case sLen =>
    simp only [decTransition, tLen, decViol] at ht
    split at ht
    · rename_i hb
      cases ht
      obtain ⟨vs, hlen, rfl⟩ := hr
      have hn : vs.length = b.toNat := by rw [hlen]; simp; omega
      exact ⟨vs, by omega, by omega, by rw [hn]; simp⟩
    · cases ht
  case sAcc =>
    simp only [decTransition, tAcc] at ht
    obtain ⟨h1, -, -, -⟩ := hd
    have hrem : (drem - 1).toNat + 1 = drem.toNat := by
      simp only at h1
      bv_omega
    split at ht <;> cases ht
    · rename_i hz
      rw [hz] at hrem
      obtain rfl : r = [0xAA] := hr
      exact ⟨[b], hrem, rfl⟩
    · obtain ⟨vs, hlen, rfl⟩ := hr
      exact ⟨b :: vs, by rw [List.length_cons, hlen, hrem], rfl⟩
  case sTerm =>
    simp only [decTransition, tTerm, decViol] at ht
    split at ht <;> cases ht

/-- The receive stream is the pending echoes and then a proper initial part of what a reply goes on with from `d`; or it
does not even reach the last echo. -/
def State.replyCutShort (d : Decoder) (s : State) : Prop :=
  ∃ es part : List Byte, s.rx = byteAnswers (es ++ part) ∧ es.length ≤ s.pend ∧ (part = [] ∨ es.length = s.pend) ∧
    ∃ b r, d.ReplyFrom (part ++ b :: r)

theorem decRun_hangs_replyCutShort {d : Decoder} {s : State} {e : Fault} (hd : d.Fits)
    (h : decRun d s = .fault e) : s.replyCutShort d := by
  refine decRun_induction (P := fun d s o => d.Fits → o = .fault e → s.replyCutShort d)
    ?ends ?goesOn ?timedOut ?unanswered d s hd h
  case ends => intro d s es b rest code aux data _ _ _ _ ho; cases ho
  case timedOut => intro d s es rest _ _ _ ho; cases ho
  case unanswered => intro d s es hrx hl _ _; exact ⟨es, [], by simpa using hrx, hl, .inl rfl, d.exists_replyFrom⟩
  case goesOn =>
    intro d d' s es b rest o hrx hl ht ih hd ho
    obtain ⟨es', part, hrest, hnone, -, c, r, hr⟩ := ih (decTransition_fits hd ht).1 ho
    obtain rfl : es' = [] := List.eq_nil_of_length_eq_zero (Nat.le_zero.1 hnone)
    have hrest : rest = byteAnswers part := hrest
    exact ⟨es, b :: part, by rw [hrx, hrest]; simp, hl.le, .inr hl, c, r, decTransition_replyFrom hd ht hr⟩

/-- R172 to R176: DEC waits on after the echoes and any initial part of a reply that stops short of the SUCCESS. -/
theorem decRun_waits {s : State} {es part vs : List Byte} (hrx : s.rx = byteAnswers (es ++ part))
    (hl : es.length = s.pend) (h1 : 1 ≤ vs.length) (h4 : vs.length ≤ 4)
    (hpart : part <+: 0xA8 :: BitVec.ofNat 8 vs.length :: (vs ++ [0xAA])) (hshort : part.length < vs.length + 3) :
    decRun decoderInit s = .fault .receiveUnanswered := by
  match part with
  | [] => exact decRun_unanswered (by simpa using hrx) hl.le
  | [a] =>
    obtain ⟨rfl, -⟩ := List.cons_prefix_cons.1 hpart
    rw [decRun_answer (rest := []) hl (by simpa using hrx)]
    exact decRun_unanswered (es := []) rfl (Nat.zero_le _)
  | a :: n :: us =>
    obtain ⟨rfl, htail⟩ := List.cons_prefix_cons.1 hpart
    obtain ⟨rfl, -⟩ := List.cons_prefix_cons.1 htail
    have hle : us.length ≤ vs.length := by simp at hshort; omega
    rw [decRun_announced (vs := us) (rest := []) hl h1 h4 hle (by simpa using hrx)]
    exact decRun_unanswered (es := []) rfl (Nat.zero_le _)

/-- The receive stream is the pending echoes and then a proper initial part of a reply of 1 to 4 value bytes. -/
def State.echoesAndPartOfReply (s : State) : Prop :=
  ∃ es part vs : List Byte, s.rx = byteAnswers (es ++ part) ∧ es.length = s.pend ∧ 1 ≤ vs.length ∧ vs.length ≤ 4 ∧
    part <+: 0xA8 :: BitVec.ofNat 8 vs.length :: (vs ++ [0xAA]) ∧ part.length < vs.length + 3

theorem dec_hangs_iff {s : State} {e : Fault} :
    decRun decoderInit s = .fault e ↔ s.onlyEchoes ∨ s.echoesAndPartOfReply := by
  constructor
  · intro h
    obtain ⟨es, part, hrx, hle, hpart, b, r, vs, h1, h4, hr⟩ := decRun_hangs_replyCutShort decoderInit_fits h
    rcases hpart with rfl | hl
    · exact .inl ⟨es, by simpa using hrx, hle⟩
    · refine .inr ⟨es, part, vs, hrx, hl, h1, h4, ⟨b :: r, hr⟩, ?_⟩
      have := congrArg List.length hr
      simp at this
      omega
  · cases e
    rintro (⟨es, hrx, hl⟩ | ⟨es, part, vs, hrx, hl, h1, h4, hpart, hshort⟩)
    · exact decRun_unanswered hrx hl
    · exact decRun_waits hrx hl h1 h4 hpart hshort

/-- Where a receiving command stops, while the block is not faulted. -/
theorem exec_receiving_hangs_iff {i : Instr} {s : State} {e : Fault} (hr : i.receives = true) (hf : s.fault = false) :
    exec i s = .fault e ↔ s.onlyEchoes ∨ i = .dec ∧ s.echoesAndPartOfReply := by
  cases i <;> simp only [Instr.receives, reduceCtorEq] at hr
  case rxrd => rw [exec_rxrd hf, receiveOne_hangs_iff]; simp
  case eprobe ref => rw [exec_eprobe hf, receiveOne_hangs_iff]; simp
  case dec => rw [exec_dec hf, dec_hangs_iff]; simp

theorem exec_hangs_iff {i : Instr} {s : State} {e : Fault} :
    exec i s = .fault e ↔
      i.receives = true ∧ s.fault = false ∧ (s.onlyEchoes ∨ i = .dec ∧ s.echoesAndPartOfReply) := by
  constructor
  · intro h
    obtain ⟨hr, hf⟩ := exec_fault_receives h
    exact ⟨hr, hf, (exec_receiving_hangs_iff hr hf).1 h⟩
  · rintro ⟨hr, hf, h⟩
    exact (exec_receiving_hangs_iff hr hf).2 h

/-- Settles O36: `exec_hangs_iff` is the first clause; the second bounds the stream it describes. -/
theorem onlyUnansweredReceiveHangs : Obligations.OnlyUnansweredReceiveHangs := by
  refine ⟨fun i s => exec_hangs_iff, fun i s e h => ?_, exec_ne_refused⟩
  obtain ⟨hr, hf, hstream⟩ := exec_hangs_iff.1 h
  obtain ⟨hnone, hlen⟩ := exec_receiving_hangs hr hf h
  refine ⟨hr, hf, hnone, fun hi => ?_, by omega⟩
  rcases hstream with ⟨es, hrx, hl⟩ | ⟨hdec, -⟩
  · rw [hrx, byteAnswers_length]; exact hl
  · exact absurd hdec hi

end Sys2Proof.Machine

/-! PROOFS. What a run shows is the run's own (spec/20_memory.md R65), and which commands may be repeated (R59). -/

namespace Sys2Proof.Machine

/-! ### No command looks at what was sent before, or at what comes next from outside -/

/-- The same state after `before` was sent first, and with other inputs to come. -/
def State.placed (s : State) (before : List Byte) (later : List Input) : State :=
  { s with tx := before ++ s.tx, inputs := later }

/-- The same change to the next state of an outcome. -/
def placedOut (o : Out) (before : List Byte) (later : List Input) : Out :=
  match o with
  | .next s => .next (s.placed before later)
  | .fault e => .fault e
  | .refused r => .refused r

/-- The same change to the state in which a row of sends ended. -/
def SendEnd.placed (r : SendEnd) (before : List Byte) (later : List Input) : SendEnd :=
  match r with
  | .sent s => .sent (s.placed before later)
  | .aborted s => .aborted (s.placed before later)

/-- The same change to the state in which a receive ended. -/
def Received.placed (r : Received) (before : List Byte) (later : List Input) : Received :=
  match r with
  | .byte b s => .byte b (s.placed before later)
  | .timeout s => .timeout (s.placed before later)
  | .unanswered => .unanswered

section

variable (before : List Byte) (later : List Input)

theorem unlessFaulted_placed {run : State → Out} {s : State}
    (h : run (s.placed before later) = placedOut (run s) before later) :
    unlessFaulted (s.placed before later) run = placedOut (unlessFaulted s run) before later := by
  cases hf : s.fault
  · rw [unlessFaulted_running hf, unlessFaulted_running (s := s.placed before later) hf, h]
  · rw [unlessFaulted_faulted hf, unlessFaulted_faulted (s := s.placed before later) hf]; rfl

theorem pushWire_placed (w : Byte) (s : State) :
    (s.placed before later).pushWire w = (s.pushWire w).placed before later := by
  simp only [State.pushWire, State.placed, List.append_assoc]; rfl

theorem wireSendAll_placed (ws : List Byte) (s : State) :
    wireSendAll ws (s.placed before later) = (wireSendAll ws s).placed before later := by
  induction ws generalizing s with
  | nil => rfl
  | cons w ws ih =>
    by_cases ho : s.ow = true ∧ s.pend = s.pendMax
    · obtain ⟨how, hp⟩ := ho
      have hx : wireSend w (s.placed before later) = .aborted (s.raiseFault.placed before later) :=
        wireSend_overflows (s := s.placed before later) how hp w
      simp only [wireSendAll, hx, wireSend_overflows how hp, SendEnd.placed]
    · have hx := wireSend_fits (s := s.placed before later) ho w
      rw [pushWire_placed] at hx
      simp only [wireSendAll, hx, wireSend_fits ho, ih]

theorem transmit_placed (ws : List Byte) (s : State) :
    transmit ws (s.placed before later) = placedOut (transmit ws s) before later := by
  rw [transmit, transmit, wireSendAll_placed]
  cases wireSendAll ws s <;> rfl

theorem recvFrom_placed (rx : List Answer) (s : State) :
    recvFrom rx (s.placed before later) = (recvFrom rx s).placed before later := by
  induction rx generalizing s with
  | nil => rfl
  | cons a rest ih =>
    cases a with
    | timeout => rfl
    | byte b =>
      have hpend : (s.placed before later).pend = s.pend := rfl
      simp only [recvFrom, hpend]
      split
      · exact ih (s.discardEcho rest)
      · rfl

theorem recvSurfaced_placed (s : State) :
    recvSurfaced (s.placed before later) = (recvSurfaced s).placed before later :=
  recvFrom_placed before later s.rx s

theorem receiveOne_placed {onByte : Byte → State → State}
    (hb : ∀ b s, onByte b (s.placed before later) = (onByte b s).placed before later) (s : State) :
    receiveOne onByte (s.placed before later) = placedOut (receiveOne onByte s) before later := by
  rw [receiveOne, receiveOne, recvSurfaced_placed]
  cases recvSurfaced s with
  | byte b t => exact congrArg Host.Outcome.next (hb b t)
  | timeout t => rfl
  | unanswered => rfl

theorem probeByte_placed (ref b : Byte) (s : State) :
    probeByte ref b (s.placed before later) = (probeByte ref b s).placed before later := by
  unfold probeByte; split <;> rfl

theorem decLoop_placed (fuel : Nat) (d : Decoder) (s : State) :
    decLoop fuel d (s.placed before later) = placedOut (decLoop fuel d s) before later := by
  induction fuel generalizing d s with
  | zero => rfl
  | succ fuel ih =>
    have hrecv : recvSurfaced ((s.placed before later).setDecoder d) =
        (recvSurfaced (s.setDecoder d)).placed before later := recvSurfaced_placed before later (s.setDecoder d)
    rw [decLoop, decLoop, hrecv]
    cases recvSurfaced (s.setDecoder d) with
    | timeout t => rfl
    | unanswered => rfl
    | byte b t =>
      simp only [Received.placed]
      cases decTransition b d with
      | goOn d' => exact ih d' t
      | ends code aux data => rfl

theorem unfIdle_placed (b : Byte) (s : State) :
    unfIdle b (s.placed before later) = (unfIdle b s).placed before later := by
  unfold unfIdle
  split
  · rfl
  · split <;> rfl

theorem unfFollower_placed (b : Byte) (s : State) :
    unfFollower b (s.placed before later) = (unfFollower b s).placed before later := by
  have hparams : (s.placed before later).params = s.params := rfl
  unfold unfFollower
  dsimp only [State.setEsc_params]
  rw [hparams]
  split
  · cases s.params.a525 <;> rfl
  · split <;> rfl

theorem unfNext_placed (b : Byte) (s : State) :
    unfNext b (s.placed before later) = (unfNext b s).placed before later := by
  have hesc : (s.placed before later).esc = s.esc := rfl
  unfold unfNext
  rw [hesc]
  split
  · exact unfFollower_placed before later b s
  · exact unfIdle_placed before later b s

/-- A command does with the state `s.placed before later` what it does with `s`. -/
theorem exec_placed (i : Instr) (s : State) :
    exec i (s.placed before later) = placedOut (exec i s) before later := by
  cases i with
  | stat => rfl
  | nop | crcclr | crcrd | eclr | unfclr =>
    simp only [exec, execNop, execCrcclr, execCrcrd, execEclr, execUnfclr]
    exact unlessFaulted_placed before later rfl
  | txd | txr | txc | txe => exact unlessFaulted_placed before later (transmit_placed before later _ s)
  | rxrd => exact unlessFaulted_placed before later (receiveOne_placed before later (fun _ _ => rfl) s)
  | eprobe ref =>
    exact unlessFaulted_placed before later (receiveOne_placed before later (probeByte_placed before later ref) s)
  | dec => exact unlessFaulted_placed before later (decLoop_placed before later _ decoderInit s)
  | unf b =>
    simp only [exec, execUnf]
    exact unlessFaulted_placed before later (congrArg Host.Outcome.next (unfNext_placed before later b s))

theorem runWord_placed (w : Word) (s : State) :
    runWord w (s.placed before later) = placedOut (runWord w s) before later := by
  unfold runWord
  cases decodeWord w with
  | error e => rfl
  | ok i => exact exec_placed before later i s

/-! ### The view of a run (R65) -/

/-- A view holds a run's own part of the send stream only, and no input. -/
theorem runView_placed (ws : List Word) (s : State) :
    runView ws (s.placed before later) = runView ws s := by
  induction ws generalizing s with
  | nil => rfl
  | cons w ws ih =>
    rw [runView, runView, runWord_placed]
    cases runWord w s with
    | fault e => rfl
    | refused r => rfl
    | next t =>
      have hsent : (t.placed before later).tx.drop (s.placed before later).tx.length = t.tx.drop s.tx.length := by
        simp [State.placed, List.drop_append]
      simp only [placedOut, ih, hsent]
      rfl

end

/-- R31: a word leaves an answer it does not read, and does not depend on it. -/
theorem runWord_more_answers (more : List Answer) {w : Word} {s t : State} (h : runWord w s = .next t) :
    runWord w { s with rx := s.rx ++ more } = .next { t with rx := t.rx ++ more } := by
  rcases runWord_cases w s with ⟨e, hd, hx⟩ | ⟨i, hd, hx⟩ <;> rw [hx] at h
  · cases h; exact runWord_error hd _
  · rw [runWord_ok hd]; exact unreadAnswersStay i s t more h

/-- A view counts the answers consumed, and those left unread are not in it. -/
theorem runView_more_answers (more : List Answer) {ws : List Word} {s : State} {v : RunView}
    (h : runView ws s = some v) : runView ws { s with rx := s.rx ++ more } = some v := by
  induction ws generalizing s v with
  | nil => exact h
  | cons w ws ih =>
    rw [runView] at h
    cases hw : runWord w s with
    | fault e => rw [hw] at h; cases h
    | refused r => rw [hw] at h; cases h
    | next t =>
      rw [hw] at h
      obtain ⟨v', hv', rfl⟩ := Option.map_eq_some_iff.1 h
      have hcount : (s.rx ++ more).length - (t.rx ++ more).length = s.rx.length - t.rx.length := by
        simp only [List.length_append]; omega
      rw [runView, runWord_more_answers more hw]
      simp only [ih hv', hcount]
      rfl

/-- Settles O54: with the run's own bytes alone on the send stream, both states are that one `placed`. -/
theorem runViewIsOfTheRunAlone : Obligations.RunViewIsOfTheRunAlone := by
  intro ws s v unread before later h
  have hplaced : ∀ (p : List Byte) (l : List Input),
      runView ws { s with tx := p, inputs := l } = runView ws { s with tx := [] } := fun p l => by
    rw [← runView_placed p l ws { s with tx := [] }, State.placed, List.append_nil]
  have hown : runView ws { s with tx := before, inputs := later } = some v := by
    rw [hplaced, ← hplaced s.tx s.inputs]; exact h
  exact runView_more_answers unread hown

/-! ### The repeatable commands (R59) -/

/-- Run again after any of its runs, the command leaves what that run left. -/
def Repeatable (i : Instr) : Prop := ∀ s t : State, exec i s = .next t → exec i t = .next t

theorem stat_repeatable : Repeatable .stat := by
  intro s t h
  rw [exec_stat] at h; cases h; rfl

/-- A command that leaves `f s` is repeatable where `f` is idempotent and no fault comes up; the FAULTED result over
itself is the same result. -/
theorem repeatable_of_idempotent {i : Instr} {f : State → State} (hi : i ≠ .stat)
    (hrun : ∀ s : State, s.fault = false → exec i s = .next (f s)) (hfault : ∀ s, (f s).fault = s.fault)
    (hidem : ∀ s, f (f s) = f s) : Repeatable i := by
  intro s t h
  cases hf : s.fault
  · rw [hrun s hf] at h; cases h
    rw [hrun _ ((hfault s).trans hf), hidem]
  · rw [exec_faulted hf hi] at h; cases h
    exact exec_faulted hf hi

/-- A repeated send would have to send nothing. -/
theorem not_repeatable_of_sends {i : Instr} (hw : i.wireBytes ≠ []) : ¬ Repeatable i := by
  intro h
  have hroom : State.reset.hasRoom i.wireBytes.length := fun how => absurd how (by decide)
  have hsends : exec i State.reset = .next ((State.reset.afterSending i.wireBytes).result .ok 0 0) := by
    rw [exec_transmit rfl hw, transmit, wireSendAll_room hroom]
  obtain ⟨sent, taken, he⟩ := exec_effect (h _ _ hsends)
  have hall : sent = i.wireBytes := (he.complete hw rfl).1
  have hnone : sent = [] := by simpa using he.tx
  exact hw (hall.symm.trans hnone)

/-- A repeated receive would have to take no answer. -/
theorem not_repeatable_of_receives {i : Instr} (hr : i.receives = true) : ¬ Repeatable i := by
  intro h
  obtain ⟨t, ht, -⟩ := receivingCommandsComplete i { State.reset with rx := [.timeout] } hr rfl (.inl (by simp))
  have hf : t.fault = false := (exec_receiving_flags hr rfl ht).2.1
  obtain ⟨taken, hne, hrx⟩ := (exec_receive_effect hr hf (h _ _ ht)).1.took
  exact hne (by simpa using hrx)

theorem State.symbol_resCode (s : State) (kind : SymKind) (b : Byte) :
    (s.symbol kind b).resCode = kind.bits ++ ResultCode.sym.bits := rfl

/-- R107: with no ESCAPE before it a byte is no token. -/
theorem unfIdle_ne_token (b : Byte) (s : State) :
    (unfIdle b s).resCode ≠ SymKind.token.bits ++ ResultCode.sym.bits := by
  unfold unfIdle
  split
  · rw [State.symbol_resCode]; decide
  · split <;> rw [State.symbol_resCode] <;> decide

theorem unfFollower_token {b : Byte} (hescape : b ≠ tokEscape + escShift) (hflow : b ≠ flowChar + escShift)
    (s : State) : unfFollower b s = (s.setEsc false).symbol .token b := by
  simp only [unfFollower]
  rw [if_neg hescape, if_neg hflow]

theorem unfFollower_flags (b : Byte) (s : State) :
    (unfFollower b s).esc = false ∧ (unfFollower b s).fault = s.fault := by
  unfold unfFollower
  dsimp only
  repeat' split
  all_goals exact ⟨rfl, rfl⟩

/-- The same byte again, now without an ESCAPE before it, is another symbol: a token is a token no more, and the two
escaped values come back as themselves. -/
theorem unfIdle_unfFollower_ne (b : Byte) :
    unfIdle b (unfFollower b (State.reset.setEsc true)) ≠ unfFollower b (State.reset.setEsc true) := by
  by_cases hescape : b = tokEscape + escShift
  · subst hescape; decide
  by_cases hflow : b = flowChar + escShift
  · subst hflow; decide
  intro h
  have hcode := congrArg State.resCode h
  rw [unfFollower_token hescape hflow, State.symbol_resCode] at hcode
  exact unfIdle_ne_token b _ hcode

/-- UNF of a follower ends the pair, so that the next UNF is one of the idle state. -/
theorem not_repeatable_unf (b : Byte) : ¬ Repeatable (.unf b) := by
  intro h
  obtain ⟨hesc, hfault⟩ := unfFollower_flags b (State.reset.setEsc true)
  have hfirst : exec (.unf b) (State.reset.setEsc true) = .next (unfFollower b (State.reset.setEsc true)) :=
    exec_unf rfl b
  have hagain := h _ _ hfirst
  rw [exec_unf hfault, hesc] at hagain
  exact unfIdle_unfFollower_ne b (Host.Outcome.next.inj hagain)

/-- The commands of R59. -/
theorem repeatable_listed {i : Instr} (hi : i ∈ ([.nop, .crcrd, .stat, .unfclr, .crcclr, .eclr] : List Instr)) :
    Repeatable i := by
  cases i
  case stat => exact stat_repeatable
  case nop => exact repeatable_of_idempotent nofun (fun _ hf => exec_nop hf) (fun _ => rfl) fun _ => rfl
  case crcclr => exact repeatable_of_idempotent nofun (fun _ hf => exec_crcclr hf) (fun _ => rfl) fun _ => rfl
  case crcrd => exact repeatable_of_idempotent nofun (fun _ hf => exec_crcrd hf) (fun _ => rfl) fun _ => rfl
  case eclr => exact repeatable_of_idempotent nofun (fun _ hf => exec_eclr hf) (fun _ => rfl) fun _ => rfl
  case unfclr => exact repeatable_of_idempotent nofun (fun _ hf => exec_unfclr hf) (fun _ => rfl) fun _ => rfl
  all_goals simp at hi

/-- Settles O55: of the commands that are not listed, four send, three receive, and the last is UNF. -/
theorem repeatableCommands : Obligations.RepeatableCommands := by
  refine fun i => ⟨fun h : Repeatable i => ?_, repeatable_listed⟩
  cases i
  case nop | crcclr | crcrd | eclr | unfclr | stat => decide
  case txd d => exact absurd h (not_repeatable_of_sends (enc_ne_nil d))
  case txr | txc | txe => exact absurd h (not_repeatable_of_sends nofun)
  case rxrd | eprobe | dec => exact absurd h (not_repeatable_of_receives rfl)
  case unf b => exact absurd h (not_repeatable_unf b)

end Sys2Proof.Machine

/-! PROOFS. Decoding and encoding (spec/30_encoding.md R70 to R73): they are inverse, and the legal words, by R73's three
conditions and by match and mask. -/

namespace Sys2Proof

open Machine

/-! ### Decoding and encoding are inverse (R70 to R72) -/

/-- Settles O1: both sides say that the word's fields are the command's opcode, zero and the command's operand. -/
theorem decodeEncodeAgree : Obligations.DecodeEncodeAgree := by
  intro w i
  rw [decodeWord_ok_iff, encode_eq_wordOf]
  constructor
  · rintro ⟨hop, hrsv, harg⟩
    rw [← hop, ← hrsv, ← harg, wordOf_fields]
  · rintro rfl
    exact ⟨fieldOp_wordOf _ _ _, fieldRsv_wordOf _ _ _, fieldArg_wordOf _ _ _⟩

/-- Settles O3: each of the words is the encoding of its command. -/
theorem listedWordsDecode : Obligations.ListedWordsDecode := by
  simp only [Obligations.ListedWordsDecode, decodeEncodeAgree _ _]
  decide

/-! ### The fields by shift and mask (R70) -/

theorem shiftRight_eq_fieldOp (w : Word) : (w >>> 12).toNat = (fieldOp w).toNat := by
  have hw := w.isLt
  simp only [fieldOp, BitVec.extractLsb'_toNat, BitVec.toNat_ushiftRight, Nat.shiftRight_eq_div_pow]
  omega

theorem wordOf_and_rsvMask (op rsv : Nibble) (arg : Byte) : wordOf op rsv arg &&& 0x0F00 = wordOf 0 rsv 0 := by
  apply BitVec.eq_of_getLsbD_eq
  intro k hk
  interval_cases k <;> simp [wordOf]

theorem wordOf_and_argMask (op rsv : Nibble) (arg : Byte) : wordOf op rsv arg &&& 0x00FF = wordOf 0 0 arg := by
  apply BitVec.eq_of_getLsbD_eq
  intro k hk
  interval_cases k <;> simp [wordOf]

theorem wordOf_and_opMask (op rsv : Nibble) (arg : Byte) : wordOf op rsv arg &&& 0xFF00 = wordOf op rsv 0 := by
  apply BitVec.eq_of_getLsbD_eq
  intro k hk
  interval_cases k <;> simp [wordOf]

theorem wordOf_inj {op op' rsv rsv' : Nibble} {arg arg' : Byte} :
    wordOf op rsv arg = wordOf op' rsv' arg' ↔ op = op' ∧ rsv = rsv' ∧ arg = arg' := by
  constructor
  · intro h
    exact ⟨by simpa using congrArg fieldOp h, by simpa using congrArg fieldRsv h, by simpa using congrArg fieldArg h⟩
  · rintro ⟨rfl, rfl, rfl⟩; rfl

theorem rsvMask_eq_zero_iff (w : Word) : w &&& 0x0F00 = 0 ↔ fieldRsv w = 0 := by
  have hzero : (0 : Word) = wordOf 0 0 0 := rfl
  rw [← wordOf_fields w, wordOf_and_rsvMask, hzero, wordOf_inj, fieldRsv_wordOf]
  simp

theorem argMask_eq_zero_iff (w : Word) : w &&& 0x00FF = 0 ↔ fieldArg w = 0 := by
  have hzero : (0 : Word) = wordOf 0 0 0 := rfl
  rw [← wordOf_fields w, wordOf_and_argMask, hzero, wordOf_inj, fieldArg_wordOf]
  simp

/-- A word matches an opcode under the mask of a command with an operand exactly where that is its opcode, with `rsv`
zero. -/
theorem opMask_eq_iff (w : Word) (op : Nibble) :
    w &&& 0xFF00 = wordOf op 0 0 ↔ fieldOp w = op ∧ fieldRsv w = 0 := by
  rw [← wordOf_fields w, wordOf_and_opMask, wordOf_inj, fieldOp_wordOf, fieldRsv_wordOf]
  simp

/-! ### The legal words (R73) -/

/-- The opcodes of the commands with an operand (R72). -/
def operandOps : List Nibble := [0x3, 0x4, 0x5, 0x8, 0xB]

/-- The opcodes of the commands without one (R72). -/
def plainOps : List Nibble := [0x0, 0x1, 0x2, 0x6, 0x7, 0x9, 0xA, 0xC, 0xD]

/-- R72's map is defined on fourteen opcodes, on five of them for every operand and on the others for zero. -/
theorem decodeOp_defined_iff (op : Nibble) (arg : Byte) :
    (∃ i, decodeOp op arg = .ok i) ↔ op ∈ operandOps ∨ op ∈ plainOps ∧ arg = 0 := by
  constructor
  · rintro ⟨i, hi⟩
    obtain ⟨rfl, rfl⟩ := (decodeOp_ok_iff _ _ _).1 hi
    cases i
    case txd | txr | txc | eprobe | unf => simp [Instr.op, operandOps]
    all_goals exact .inr (by decide)
  · simp only [operandOps, plainOps, List.mem_cons, List.not_mem_nil, or_false]
    rintro (hop | ⟨hop, rfl⟩)
    · rcases hop with rfl | rfl | rfl | rfl | rfl <;> exact ⟨_, rfl⟩
    · rcases hop with rfl | rfl | rfl | rfl | rfl | rfl | rfl | rfl | rfl <;> exact ⟨_, rfl⟩

/-- The two lists of opcodes are those of R73's first and third condition. -/
theorem conditions_iff_listed (op : Nibble) (arg : Byte) :
    op.toNat ≤ 0xD ∧ (op.toNat ∈ [0x3, 0x4, 0x5, 0x8, 0xB] ∨ arg = 0) ↔
      op ∈ operandOps ∨ op ∈ plainOps ∧ arg = 0 := by
  have hlists : ∀ op : Nibble,
      (op.toNat ≤ 0xD ∧ op.toNat ∈ [0x3, 0x4, 0x5, 0x8, 0xB] ↔ op ∈ operandOps) ∧
      (op.toNat ≤ 0xD ↔ op ∈ operandOps ∨ op ∈ plainOps) := by decide
  obtain ⟨hoperand, hmap⟩ := hlists op
  rw [and_or_left, hoperand, hmap]
  tauto

theorem decodes_iff_listed (w : Word) :
    (∃ i, decodeWord w = .ok i) ↔
      fieldRsv w = 0 ∧ (fieldOp w ∈ operandOps ∨ fieldOp w ∈ plainOps ∧ fieldArg w = 0) := by
  have hfields (i : Instr) :
      decodeWord w = .ok i ↔ fieldRsv w = 0 ∧ decodeOp (fieldOp w) (fieldArg w) = .ok i := by
    rw [decodeWord_ok_iff, decodeOp_ok_iff, and_left_comm]
  rw [exists_congr hfields, exists_and_left, decodeOp_defined_iff]

theorem decodes_iff_conditions (w : Word) :
    (∃ i, decodeWord w = .ok i) ↔
      (w >>> 12).toNat ≤ 0xD ∧ w &&& 0x0F00 = 0 ∧
        ((w >>> 12).toNat ∈ [0x3, 0x4, 0x5, 0x8, 0xB] ∨ w &&& 0x00FF = 0) := by
  rw [decodes_iff_listed, ← conditions_iff_listed, shiftRight_eq_fieldOp, rsvMask_eq_zero_iff, argMask_eq_zero_iff,
    and_left_comm]

theorem decodes_iff_matches (w : Word) :
    (∃ i, decodeWord w = .ok i) ↔
      (∃ op ∈ operandOps.map (wordOf · 0 0), w &&& 0xFF00 = op) ∨ w ∈ plainOps.map (wordOf · 0 0) := by
  rw [decodes_iff_listed]
  constructor
  · rintro ⟨hrsv, hop | ⟨hop, harg⟩⟩
    · exact .inl ⟨_, List.mem_map_of_mem hop, (opMask_eq_iff w _).2 ⟨rfl, hrsv⟩⟩
    · rw [← wordOf_fields w, hrsv, harg]
      exact .inr (List.mem_map_of_mem hop)
  · rintro (⟨_, hmem, hw⟩ | hmem)
    · obtain ⟨op, hop, rfl⟩ := List.mem_map.1 hmem
      obtain ⟨hfield, hrsv⟩ := (opMask_eq_iff w op).1 hw
      exact ⟨hrsv, .inl (hfield ▸ hop)⟩
    · obtain ⟨op, hop, rfl⟩ := List.mem_map.1 hmem
      simp [hop]

/-- Settles O2: R73 in its two forms, and an illegal word's step. -/
theorem legalWordsAreExactlyTheListed : Obligations.LegalWordsAreExactlyTheListed :=
  ⟨decodes_iff_conditions, decodes_iff_matches, fun _ _ s hd => runWord_error hd s⟩

end Sys2Proof

/-! PROOFS. The result registers hold a row of R80's table (spec/30_encoding.md R80, R81, R87): every command leaves one,
under a code that is the command's own, and so does every step. -/

namespace Sys2Proof.Machine

/-! ### Rows of the table (R80) -/

/-- `Result(code, aux, data)` is a row of the table. -/
abbrev IsRow (code : ResultCode) (aux : Nibble) (data : Data) : Prop := resultListed (aux ++ code.bits, data) = true

/-- The result registers hold a row of the table, and its code is one of `codes`. -/
structure State.Shows (t : State) (codes : List Nibble) : Prop where
  listed : resultListed t.readResult = true
  code : t.resCode.extractLsb' 0 4 ∈ codes

/-- The two nibbles of `res_code`, at its own width. -/
theorem code_append (aux code : Nibble) : (aux ++ code : Code).extractLsb' 0 4 = code :=
  BitVec.extractLsb'_append_eq_right

theorem aux_append (aux code : Nibble) : (aux ++ code : Code).extractLsb' 4 4 = aux :=
  BitVec.extractLsb'_append_eq_left

theorem State.result_shows {code : ResultCode} {aux : Nibble} {data : Data} {codes : List Nibble} (s : State)
    (hrow : IsRow code aux data) (hcode : code.bits ∈ codes) : (s.result code aux data).Shows codes where
  listed := hrow
  code := by rw [State.result_resCode, code_append]; exact hcode

theorem byteData_lt (b : Byte) : (byteData b).toNat < 256 := by
  rw [byteData, BitVec.toNat_setWidth_of_le (by decide)]
  exact b.isLt

theorem crcData_lt (c : Crc) : (crcData c).toNat < 65536 := by
  rw [crcData, BitVec.toNat_setWidth_of_le (by decide)]
  exact c.isLt

theorem statusAux_le (s : State) : (statusAux s).toNat ≤ 7 := by
  unfold statusAux
  cases s.fault <;> cases s.esc <;> cases s.ow <;> decide

/-- The codes that carry nothing but themselves. -/
theorem isRow_bare {code : ResultCode} (h : code ∈ [.ok, .fail, .illegal, .faulted]) : IsRow code 0 0 := by
  revert h; cases code <;> decide

theorem isRow_byte (b : Byte) : IsRow .byte 0 (byteData b) := by
  simp [IsRow, resultListed, ResultCode.bits, byteData_lt]

theorem isRow_matched (b : Byte) : IsRow .matched 0 (byteData b) := by
  simp [IsRow, resultListed, ResultCode.bits, byteData_lt]

theorem isRow_crc (c : Crc) : IsRow .crc 0 (crcData c) := by
  simp [IsRow, resultListed, ResultCode.bits, crcData_lt]

theorem isRow_value {aux : Nibble} {data : Data} (h1 : 1 ≤ aux.toNat) (h4 : aux.toNat ≤ 4)
    (hdata : data.toNat < 256 ^ aux.toNat) : IsRow .value aux data := by
  simp [IsRow, resultListed, aux_append, code_append, ResultCode.bits, h1, h4, hdata]

/-- R87: no byte violates the protocol in `S_ACC`. -/
theorem isRow_viol {st : DecState} (h : st ≠ .sAcc) (b : Byte) : IsRow .viol st.bits (byteData b) := by
  cases st
  case sAcc => exact absurd rfl h
  all_goals simp [IsRow, resultListed, ResultCode.bits, DecState.bits, byteData_lt]

theorem isRow_timeout (st : DecState) : IsRow .timeout st.bits 0 := by cases st <;> decide

theorem isRow_status (s : State) : IsRow .status (statusAux s) (pendData s.pend) := by
  simp [IsRow, resultListed, aux_append, code_append, ResultCode.bits, statusAux_le]

theorem isRow_sym {kind : SymKind} {data : Data} (h : symbolListed kind.bits.toNat data = true) :
    IsRow .sym kind.bits data := by
  simp [IsRow, resultListed, aux_append, code_append, ResultCode.bits, h]

theorem State.resultBare_shows (s : State) {code : ResultCode} {codes : List Nibble}
    (h : code ∈ [.ok, .fail, .illegal, .faulted]) (hcode : code.bits ∈ codes) : (s.result code 0 0).Shows codes :=
  s.result_shows (isRow_bare h) hcode

/-! ### What each kind of command leaves -/

/-- A transmit command ends with OK, or with FAULTED on the byte that does not fit (R102 to R105, R204). -/
theorem transmit_shows {ws : List Byte} {s t : State} (h : transmit ws s = .next t) : t.Shows [0x0, 0xF] := by
  rcases transmit_cases ws s with ⟨hx, -⟩ | ⟨_, _, _, -, -, -, hx⟩ <;> rw [hx] at h <;> cases h
  · exact State.resultBare_shows _ (by decide) (by decide)
  · exact State.resultBare_shows _ (by decide) (by decide)

/-- A one-byte receive ends as its byte says, or with TIMEOUT (R152, R153). -/
theorem receiveOne_shows {onByte : Byte → State → State} {codes : List Nibble} {s t : State}
    (hbyte : ∀ b s, (onByte b s).Shows codes) (htimeout : ResultCode.timeout.bits ∈ codes)
    (h : receiveOne onByte s = .next t) : t.Shows codes := by
  rcases receiveOne_cases onByte s with ⟨_, b, _, -, -, hx⟩ | ⟨_, _, -, -, hx⟩ | ⟨_, -, -, hx⟩ <;>
    rw [hx] at h <;> cases h
  · exact hbyte b _
  · exact State.result_shows _ (isRow_timeout .sToken) htimeout

theorem probeByte_shows (ref b : Byte) (s : State) : (probeByte ref b s).Shows [0x1, 0x2, 0x7] := by
  unfold probeByte
  split
  · exact State.result_shows _ (isRow_matched b) (by decide)
  · exact State.result_shows _ (isRow_byte b) (by decide)

theorem State.symbol_shows (s : State) {kind : SymKind} {b : Byte}
    (h : symbolListed kind.bits.toNat (byteData b) = true) : (s.symbol kind b).Shows [0x8] :=
  s.result_shows (isRow_sym h) (by decide)

theorem symbolListed_byte (b : Byte) :
    symbolListed SymKind.data.bits.toNat (byteData b) = true ∧
      symbolListed SymKind.token.bits.toNat (byteData b) = true := by
  simp [symbolListed, SymKind.bits, byteData_lt]

/-- R81: NONE carries 0 and FLOW the flow character. -/
theorem unfIdle_shows (b : Byte) (s : State) : (unfIdle b s).Shows [0x8] := by
  unfold unfIdle
  split
  · exact State.symbol_shows _ (by decide)
  · split
    next hflow => subst hflow; exact State.symbol_shows _ (by decide)
    next => exact State.symbol_shows _ (symbolListed_byte b).1

/-- R81: END carries the second byte of the end marker. -/
theorem unfFollower_shows (b : Byte) (s : State) : (unfFollower b s).Shows [0x8] := by
  simp only [unfFollower]
  split
  next hend =>
    subst hend
    split
    · exact State.symbol_shows _ (by decide)
    · exact State.symbol_shows _ (by decide)
  next =>
    split
    · exact State.symbol_shows _ (by decide)
    · exact State.symbol_shows _ (symbolListed_byte b).2

theorem unfNext_shows (b : Byte) (s : State) : (unfNext b s).Shows [0x8] := by
  unfold unfNext
  split
  · exact unfFollower_shows b s
  · exact unfIdle_shows b s

/-- The terminal results of DEC's four transition functions (R173 to R176): the registers' bounds make the value fit its
announced length. -/
theorem decTransition_ends_isRow {b : Byte} {d : Decoder} {code : ResultCode} {aux : Nibble} {data : Data}
    (hd : d.Fits) (h : decTransition b d = .ends code aux data) :
    IsRow code aux data ∧ code.bits ∈ ([0x4, 0x5, 0x6, 0x7] : List Nibble) := by
  obtain ⟨dst, dlen, drem, dval⟩ := d
  cases dst
  case sToken =>
    simp only [decTransition, tToken, decViol] at h
    split at h
    · cases h; exact ⟨isRow_bare (by decide), by decide⟩
    · split at h
      · cases h
      · cases h; exact ⟨isRow_viol (by decide) b, by decide⟩
  case sLen =>
    simp only [decTransition, tLen, decViol] at h
    split at h
    · cases h
    · cases h; exact ⟨isRow_viol (by decide) b, by decide⟩
  case sAcc => cases h
  case sTerm =>
    have hlen : (dlen.setWidth 4).toNat = dlen.toNat := BitVec.toNat_setWidth_of_le (by decide)
    rw [Decoder.Fits, ← hlen] at hd
    obtain ⟨h1, h4, hval⟩ := hd
    simp only [decTransition, tTerm, decViol] at h
    split at h
    · cases h; exact ⟨isRow_value h1 h4 hval, by decide⟩
    · cases h; exact ⟨isRow_viol (by decide) b, by decide⟩

/-- DEC ends with a terminal result, or with TIMEOUT in the state it was in (R172, R177). -/
theorem decRun_shows {d : Decoder} {s t : State} (hd : d.Fits) (h : decRun d s = .next t) :
    t.Shows [0x4, 0x5, 0x6, 0x7] := by
  refine decRun_induction (P := fun d _ o => d.Fits → ∀ t, o = .next t → t.Shows [0x4, 0x5, 0x6, 0x7])
    ?ends ?goesOn ?timedOut ?unanswered d s hd t h
  case ends =>
    intro d s es b rest code aux data _ _ ht hd t ho
    cases ho
    obtain ⟨hrow, hcode⟩ := decTransition_ends_isRow hd ht
    exact State.result_shows _ hrow hcode
  case goesOn => intro d d' s es b rest o _ _ ht ih hd; exact ih (decTransition_fits hd ht).1
  case timedOut =>
    intro d s es rest _ _ _ t ho
    cases ho
    exact State.result_shows _ (isRow_timeout d.dst) (by decide)
  case unanswered => intro d s es _ _ _ t ho; cases ho

/-- R80: an unfaulted command leaves a row of the table, under a code the table gives it. -/
theorem exec_shows {i : Instr} {s t : State} (hf : s.fault = false) (h : exec i s = .next t) :
    t.Shows (resultCodes i) := by
  cases i
  case nop => rw [exec_nop hf] at h; cases h; exact State.resultBare_shows _ (by decide) (by decide)
  case crcclr => rw [exec_crcclr hf] at h; cases h; exact State.resultBare_shows _ (by decide) (by decide)
  case eclr => rw [exec_eclr hf] at h; cases h; exact State.resultBare_shows _ (by decide) (by decide)
  case unfclr => rw [exec_unfclr hf] at h; cases h; exact State.resultBare_shows _ (by decide) (by decide)
  case crcrd => rw [exec_crcrd hf] at h; cases h; exact State.result_shows _ (isRow_crc _) (by decide)
  case stat => rw [exec_stat] at h; cases h; exact State.result_shows _ (isRow_status s) (by decide)
  case unf b => rw [exec_unf hf] at h; cases h; exact unfNext_shows b s
  case txd d => rw [exec_transmit (i := .txd d) hf (enc_ne_nil d)] at h; exact transmit_shows h
  case txr | txc | txe => rw [exec_transmit hf (by simp [Instr.wireBytes])] at h; exact transmit_shows h
  case rxrd =>
    rw [exec_rxrd hf] at h
    exact receiveOne_shows (fun b _ => State.result_shows _ (isRow_byte b) (by decide)) (by decide) h
  case eprobe ref =>
    rw [exec_eprobe hf] at h
    exact receiveOne_shows (probeByte_shows ref) (by simp [resultCodes, ResultCode.bits]) h
  case dec => rw [exec_dec hf] at h; exact decRun_shows decoderInit_fits h

/-! ### What a step leaves -/

/-- A faulted block answers FAULTED, and STAT its status (R192, R193). -/
theorem exec_listed {i : Instr} {s t : State} (h : exec i s = .next t) : resultListed t.readResult = true := by
  cases hf : s.fault
  · exact (exec_shows hf h).listed
  · by_cases hi : i = .stat
    · subst hi; rw [exec_stat] at h; cases h; exact isRow_status s
    · rw [exec_faulted hf hi] at h; cases h; exact isRow_bare (by decide)

/-- An illegal word leaves ILLEGAL (R191). -/
theorem runWord_listed {w : Word} {s t : State} (h : runWord w s = .next t) : resultListed t.readResult = true := by
  rcases runWord_cases w s with ⟨_, -, hx⟩ | ⟨i, -, hx⟩ <;> rw [hx] at h
  · cases h; exact isRow_bare (by decide)
  · exact exec_listed h

/-- R220: the reset values of the result registers are the row of OK. -/
theorem reset_listed : resultListed State.reset.readResult = true := isRow_bare (code := .ok) (by decide)

theorem cutByReset_readResult (k : Nat) (s : State) (o : Out) :
    (cutByReset k s o).readResult = State.reset.readResult := by
  rw [cutByReset_frame]; rfl

/-- A step waits, runs a word, or is a reset between words or inside one. -/
theorem step_keeps_listed {s t : State} (hs : resultListed s.readResult = true) (h : step s = .next t) :
    resultListed t.readResult = true := by
  rcases step_cases h with ⟨-, hx⟩ | ⟨w, rest, -, hx⟩ | ⟨rest, -, hx⟩ | ⟨w, k, rest, -, hx⟩
  · cases hx; exact hs
  · exact runWord_listed hx.symm
  · cases hx; exact reset_listed
  · cases hx; rw [cutByReset_readResult]; exact reset_listed

theorem step_command_listed {s t : State} {w : Word} {rest : List Input} (hin : s.inputs = .command w :: rest)
    (h : step s = .next t) : resultListed t.readResult = true :=
  runWord_listed ((step_command hin).symm.trans h)

/-- Settles O50: `exec_shows` says it of one command, and only a command word writes a result that is not reset's. -/
theorem resultsAreOfTheTable : Obligations.ResultsAreOfTheTable :=
  ⟨reset_listed, fun _ _ => step_keeps_listed, fun _ _ _ _ => step_command_listed,
    fun _ _ _ hf h => (exec_shows hf h).code⟩

end Sys2Proof.Machine

/-! PROOFS. The assembler (spec/30_encoding.md R72, R88, R89): the lines it takes, and the commands and words they stand
for. -/

namespace Sys2Proof.Machine

/-! ### What a mnemonic stands for (R72, R89) -/

/-- With the operands `bs`, the mnemonic `m` stands for the commands `is`. -/
inductive Expands : Mnemonic → List Byte → List Instr → Prop
  | plain {m i w} (h : (m, i, w) ∈ plainLines) : Expands m [] [i]
  | operand {m b i w} (h : (m, i, w) ∈ operandLines b) : Expands m [b] [i]
  | sendstr {bs} (h : bs ≠ []) : Expands .sendstr bs (bs.map .txr)
  | sendblk {bs} (h : bs ≠ []) : Expands .sendblk bs (bs.map .txd)

theorem expandLine_plain {m : Mnemonic} {i : Instr} {w : Word} (h : (m, i, w) ∈ plainLines) :
    expandLine m [] = .ok [i] ∧ encode i = w ∧ i.arg = 0 := by
  have hall : ∀ p ∈ plainLines, expandLine p.1 [] = .ok [p.2.1] ∧ encode p.2.1 = p.2.2 ∧ p.2.1.arg = 0 := by decide
  exact hall _ h

theorem expandLine_operand {m : Mnemonic} {b : Byte} {i : Instr} {w : Word} (h : (m, i, w) ∈ operandLines b) :
    expandLine m [b] = .ok [i] ∧ encode i = w ||| b.setWidth 16 ∧ i.arg = b := by
  have hall : ∀ p ∈ operandLines b,
      expandLine p.1 [b] = .ok [p.2.1] ∧ encode p.2.1 = p.2.2 ||| b.setWidth 16 ∧ p.2.1.arg = b := by
    simp [operandLines, expandLine, encode, Instr.op, Instr.arg]
  exact hall _ h

theorem expandLine_sendstr {bs : List Byte} (h : bs ≠ []) : expandLine .sendstr bs = .ok (bs.map .txr) := by
  cases bs
  case nil => exact absurd rfl h
  case cons => rfl

theorem expandLine_sendblk {bs : List Byte} (h : bs ≠ []) : expandLine .sendblk bs = .ok (bs.map .txd) := by
  cases bs
  case nil => exact absurd rfl h
  case cons => rfl

theorem expandLine_of_expands {m : Mnemonic} {bs : List Byte} {is : List Instr} (h : Expands m bs is) :
    expandLine m bs = .ok is := by
  cases h with
  | plain h => exact (expandLine_plain h).1
  | operand h => exact (expandLine_operand h).1
  | sendstr h => exact expandLine_sendstr h
  | sendblk h => exact expandLine_sendblk h

/-! ### Which lines stand for something (R88) -/

/-- `m` takes `n` operands; a list holds at least one. -/
def arityAllows (m : Mnemonic) (n : Nat) : Prop :=
  match m.arity with
  | some k => n = k
  | none => n ≠ 0

theorem wf_iff (l : AsmLine) :
    l.wf = true ↔ arityAllows l.mnemonic l.operands.length ∧ ∀ v ∈ l.operands, v ≤ 255 := by
  cases h : l.mnemonic.arity <;> simp [AsmLine.wf, arityAllows, h]

/-- Each arm of the expansion has as many operands as its mnemonic takes. -/
theorem arityAllows_of_expandLine {m : Mnemonic} {bs : List Byte} {is : List Instr} (h : expandLine m bs = .ok is) :
    arityAllows m bs.length ∧ m ≠ .crcsend := by
  unfold expandLine at h
  split at h <;> simp_all [arityAllows, Mnemonic.arity]

/-- The two tables and the two lists are all the mnemonics but CRCSEND. -/
theorem arity_cases {m : Mnemonic} (hm : m ≠ .crcsend) :
    (m.arity = some 0 ∧ ∃ i w, (m, i, w) ∈ plainLines) ∨
    (m.arity = some 1 ∧ ∀ b, ∃ i w, (m, i, w) ∈ operandLines b) ∨
    m = .sendstr ∨ m = .sendblk := by
  cases m
  case crcsend => exact absurd rfl hm
  case sendstr => exact .inr (.inr (.inl rfl))
  case sendblk => exact .inr (.inr (.inr rfl))
  case txd | txr | txc | eprobe | unf | sendcmd => exact .inr (.inl ⟨rfl, by simp [operandLines]⟩)
  all_goals exact .inl ⟨rfl, by simp [plainLines]⟩

theorem expands_of_arityAllows {m : Mnemonic} {bs : List Byte} (h : arityAllows m bs.length) (hm : m ≠ .crcsend) :
    ∃ is, Expands m bs is := by
  rcases arity_cases hm with ⟨ha, i, w, hi⟩ | ⟨ha, hlines⟩ | rfl | rfl
  · rw [arityAllows, ha] at h
    obtain rfl := List.length_eq_zero_iff.1 h
    exact ⟨_, .plain hi⟩
  · rw [arityAllows, ha] at h
    obtain ⟨b, rfl⟩ := List.length_eq_one_iff.1 h
    obtain ⟨i, w, hi⟩ := hlines b
    exact ⟨_, .operand hi⟩
  · exact ⟨_, .sendstr (List.length_eq_zero_iff.not.1 h)⟩
  · exact ⟨_, .sendblk (List.length_eq_zero_iff.not.1 h)⟩

theorem expandLine_ok_iff {m : Mnemonic} {bs : List Byte} {is : List Instr} :
    expandLine m bs = .ok is ↔ Expands m bs is := by
  refine ⟨fun h => ?_, expandLine_of_expands⟩
  obtain ⟨hcount, hm⟩ := arityAllows_of_expandLine h
  obtain ⟨is', he⟩ := expands_of_arityAllows hcount hm
  obtain rfl : is' = is := Except.ok.inj ((expandLine_of_expands he).symm.trans h)
  exact he

theorem assembleLine_in_range {l : AsmLine} (h : ∀ v ∈ l.operands, v ≤ 255) :
    assembleLine l = expandLine l.mnemonic (l.operands.map (BitVec.ofNat 8)) :=
  if_pos (by simpa using h)

theorem assembleLine_ok_iff {l : AsmLine} {is : List Instr} :
    assembleLine l = .ok is ↔
      (∀ v ∈ l.operands, v ≤ 255) ∧ Expands l.mnemonic (l.operands.map (BitVec.ofNat 8)) is := by
  by_cases hrange : ∀ v ∈ l.operands, v ≤ 255
  · rw [assembleLine_in_range hrange, expandLine_ok_iff, and_iff_right hrange]
  · have hx : assembleLine l = .error .operandOutOfRange := if_neg (by simpa using hrange)
    simp [hx, hrange]

/-! ### The lines the assembler takes, and what it gives for them -/

theorem assembles_iff (l : AsmLine) : (∃ is, assembleLine l = .ok is) ↔ l.wf = true ∧ l.mnemonic ≠ .crcsend := by
  simp only [assembleLine_ok_iff, wf_iff]
  constructor
  · rintro ⟨is, hrange, he⟩
    have ht := arityAllows_of_expandLine (expandLine_of_expands he)
    rw [List.length_map] at ht
    exact ⟨⟨ht.1, hrange⟩, ht.2⟩
  · rintro ⟨⟨hcount, hrange⟩, hm⟩
    obtain ⟨is, he⟩ := expands_of_arityAllows (bs := l.operands.map (BitVec.ofNat 8)) (by rwa [List.length_map]) hm
    exact ⟨is, hrange, he⟩

/-- The commands a line stands for carry no other operands than the line's. -/
theorem Expands.args {m : Mnemonic} {bs : List Byte} {is : List Instr} (h : Expands m bs is) :
    is ≠ [] ∧ ∀ i ∈ is, i.arg = 0 ∨ i.arg ∈ bs := by
  cases h with
  | plain h => simp [(expandLine_plain h).2.2]
  | operand h => simp [(expandLine_operand h).2.2]
  | sendstr h | sendblk h =>
    refine ⟨by simpa using h, fun i hi => ?_⟩
    obtain ⟨b, hb, rfl⟩ := List.mem_map.1 hi
    exact .inr hb

theorem assembled_args {l : AsmLine} {is : List Instr} (h : assembleLine l = .ok is) :
    is ≠ [] ∧ ∀ i ∈ is, i.arg.toNat ∈ 0 :: l.operands := by
  obtain ⟨hrange, he⟩ := assembleLine_ok_iff.1 h
  obtain ⟨hne, hargs⟩ := he.args
  refine ⟨hne, fun i hi => ?_⟩
  rcases hargs i hi with h0 | hmem
  · rw [h0]; exact List.mem_cons_self
  · obtain ⟨v, hv, harg⟩ := List.mem_map.1 hmem
    have hlt : v < 2 ^ 8 := by have := hrange v hv; omega
    rw [← harg, BitVec.toNat_ofNat, Nat.mod_eq_of_lt hlt]
    exact List.mem_cons_of_mem _ hv

/-- R89: the operands of a CRCSEND come from a result. -/
theorem assembleLine_crcsend {l : AsmLine} (hm : l.mnemonic = .crcsend) (hwf : l.wf = true) :
    assembleLine l = .error .operandsFromResult := by
  obtain ⟨m, vs⟩ := l
  obtain rfl : m = .crcsend := hm
  obtain ⟨hcount, -⟩ := (wf_iff _).1 hwf
  obtain rfl : vs = [] := List.length_eq_zero_iff.1 hcount
  rfl

theorem assembleLine_plain {m : Mnemonic} {i : Instr} {w : Word} (h : (m, i, w) ∈ plainLines) :
    assembleLine ⟨m, []⟩ = .ok [i] ∧ encode i = w :=
  ⟨(expandLine_plain h).1, (expandLine_plain h).2.1⟩

theorem assembleLine_operand {m : Mnemonic} {v : Nat} {i : Instr} {w : Word} (hv : v ≤ 255)
    (h : (m, i, w) ∈ operandLines (BitVec.ofNat 8 v)) :
    assembleLine ⟨m, [v]⟩ = .ok [i] ∧ encode i = w ||| BitVec.ofNat 16 v := by
  obtain ⟨hx, hword, -⟩ := expandLine_operand h
  have hbyte : (BitVec.ofNat 8 v).setWidth 16 = BitVec.ofNat 16 v := by
    apply BitVec.eq_of_toNat_eq; simp; omega
  rw [hbyte] at hword
  exact ⟨(assembleLine_in_range (by simpa using hv)).trans hx, hword⟩

/-- R89: SENDSTR sends its operands raw and SENDBLK framed. -/
theorem assembleLine_list {vs : List Nat} (hne : vs ≠ []) (hrange : ∀ v ∈ vs, v ≤ 255) :
    assembleLine ⟨.sendstr, vs⟩ = .ok (vs.map fun v => .txr (BitVec.ofNat 8 v)) ∧
      assembleLine ⟨.sendblk, vs⟩ = .ok (vs.map fun v => .txd (BitVec.ofNat 8 v)) := by
  have hbytes : vs.map (BitVec.ofNat 8) ≠ [] := by simpa using hne
  constructor
  · rw [assembleLine_in_range hrange, expandLine_sendstr hbytes, List.map_map]; rfl
  · rw [assembleLine_in_range hrange, expandLine_sendblk hbytes, List.map_map]; rfl

/-- Settles O4: a clause for each of the lemmas above, and every encoding decodes (R70 to R73). -/
theorem assemblerTakesWellFormedLines : Obligations.AssemblerTakesWellFormedLines := by
  intro l
  refine ⟨assembles_iff l, fun is h => ?_, assembleLine_crcsend, fun m i w hi hl => ?_, fun m v i w hv hi hl => ?_,
    fun vs hne hrange => ⟨fun hl => ?_, fun hl => ?_⟩⟩
  · obtain ⟨hne, hargs⟩ := assembled_args h
    exact ⟨hne, fun i hi => ⟨(decodeEncodeAgree _ i).2 rfl, hargs i hi⟩⟩
  · rw [hl]; exact assembleLine_plain hi
  · rw [hl]; exact assembleLine_operand hv hi
  · rw [hl]; exact (assembleLine_list hne hrange).1
  · rw [hl]; exact (assembleLine_list hne hrange).2

end Sys2Proof.Machine

/-! PROOFS. The frame codec (spec/40_framecodec.md R100 to R109): what the four transmit commands send, that data sent
through TXD hides the two reserved values, every row of the unframer, and that it inverts the framer. -/

namespace Sys2Proof.Machine

/-! ### Transmit (R101 to R105) -/

theorem transmit_room {ws : List Byte} {s : State} (h : s.hasRoom ws.length) :
    transmit ws s = .next ((s.afterSending ws).result .ok 0 0) := by
  rw [transmit, wireSendAll_room h]

theorem transmit_overflow {before after : List Byte} {w : Byte} {s : State} (how : s.ow = true)
    (hp : s.pend + before.length = s.pendMax) :
    transmit (before ++ w :: after) s = .next (s.afterSending before).raiseFault.resultFaulted := by
  rw [transmit, wireSendAll_overflow how hp]

/-- One argument for the four transmit commands: each is `transmit` of the bytes it names, under the fault rule. -/
theorem transmitRule_wireBytes {i : Instr} (hw : i.wireBytes ≠ []) : TransmitRule i i.wireBytes := by
  refine fun s => ⟨fun hf => ?_, fun hf hroom => ?_, fun hf before w after hws how hp => ?_⟩
  · exact exec_faulted hf (by rintro rfl; exact hw rfl)
  · rw [exec_transmit hf hw, transmit_room hroom]; rfl
  · rw [exec_transmit hf hw, hws, transmit_overflow how hp]; rfl

theorem enc_eq_ite (d : Byte) :
    enc d = if d = 0xA5 then [0xA5, 0x25] else if d = 0x13 then [0xA5, 0x93] else [d] := by
  by_cases hescape : d = 0xA5
  · subst hescape; rfl
  by_cases hflow : d = 0x13
  · subst hflow; rfl
  have hplain : ¬ reserved d = true := by
    rw [reserved, Bool.or_eq_true, beq_iff_eq, beq_iff_eq]
    exact not_or.2 ⟨hescape, hflow⟩
  rw [enc, if_neg hplain, if_neg hescape, if_neg hflow]

/-- Settles O22: the three wire forms are those of `enc`. -/
theorem txdSendsEncodedByte : Obligations.TxdSendsEncodedByte := by
  refine fun d => ⟨(decodeEncodeAgree _ _).2 rfl, ?_⟩
  rw [← enc_eq_ite]
  exact transmitRule_wireBytes (i := .txd d) (enc_ne_nil d)

/-- Settles O23: the one named byte is sent as it stands. -/
theorem txrSendsRawByte : Obligations.TxrSendsRawByte := fun b =>
  ⟨(decodeEncodeAgree _ _).2 rfl, transmitRule_wireBytes (i := .txr b) nofun⟩

/-- Settles O24: the named bytes are ESCAPE and the operand, with no encoding between. -/
theorem txcSendsEscapeAndOpcode : Obligations.TxcSendsEscapeAndOpcode := fun b =>
  ⟨(decodeEncodeAgree _ _).2 rfl, transmitRule_wireBytes (i := .txc b) nofun⟩

/-- Settles O25: ESCAPE plus 0x80, taken mod 2^8, is 0x25. -/
theorem txeSendsEndMarker : Obligations.TxeSendsEndMarker :=
  ⟨(decodeEncodeAgree _ _).2 rfl, transmitRule_wireBytes (i := .txe) nofun⟩

/-! ### Data on the wire (R100, R228) -/

/-- Every ESCAPE among the wire bytes is the first of an escape pair. -/
def EscapesPaired (ws : List Byte) : Prop :=
  ∀ before after, ws = before ++ 0xA5 :: after → ∃ f rest, after = f :: rest ∧ (f = 0x25 ∨ f = 0x93)

theorem escapesPaired_nil : EscapesPaired [] := by
  intro before after h
  simp at h

/-- An ESCAPE of a concatenation stands in one of its parts, and its follower in the same part. -/
theorem EscapesPaired.append {as bs : List Byte} (ha : EscapesPaired as) (hb : EscapesPaired bs) :
    EscapesPaired (as ++ bs) := by
  intro before after h
  rcases List.append_eq_append_iff.1 h with ⟨mid, -, hmid⟩ | ⟨mid, has, hmid⟩
  · exact hb mid after hmid
  cases mid with
  | nil => exact hb [] after hmid.symm
  | cons w mid =>
    obtain ⟨rfl, rfl⟩ := List.cons.inj hmid
    obtain ⟨f, rest, rfl, hf⟩ := ha before mid has
    exact ⟨f, rest ++ bs, rfl, hf⟩

/-- A byte that is no ESCAPE adds none. -/
theorem escapesPaired_singleton {d : Byte} (hd : d ≠ 0xA5) : EscapesPaired [d] := by
  intro before after h
  have hmem : (0xA5 : Byte) ∈ [d] := h ▸ by simp
  exact absurd (List.mem_singleton.1 hmem).symm hd

theorem escapesPaired_pair {f : Byte} (hf : f = 0x25 ∨ f = 0x93) : EscapesPaired [0xA5, f] := by
  intro before after h
  cases before with
  | nil => exact ⟨f, [], (List.cons.inj h).2.symm, hf⟩
  | cons w before =>
    have hne : f ≠ 0xA5 := by rcases hf with rfl | rfl <;> decide
    exact escapesPaired_singleton hne before after (List.cons.inj h).2

theorem escapesPaired_enc (d : Byte) : EscapesPaired (enc d) := by
  rcases enc_shape d with ⟨h, -, hescape⟩ | h | h <;> rw [h]
  · exact escapesPaired_singleton hescape
  · exact escapesPaired_pair (.inl rfl)
  · exact escapesPaired_pair (.inr rfl)

theorem escapesPaired_encoded (ds : List Byte) : EscapesPaired (ds.flatMap enc) := by
  induction ds with
  | nil => exact escapesPaired_nil
  | cons d ds ih => exact (escapesPaired_enc d).append ih

theorem flowChar_not_mem_enc (d : Byte) : 0x13 ∉ enc d := by
  rcases enc_shape d with ⟨h, hflow, -⟩ | h | h <;> rw [h]
  · simpa using hflow.symm
  · decide
  · decide

/-- Settles O26: an unfaulted sequence of TXD sent the encoding of its data, whole. -/
theorem framedDataHidesReservedValues : Obligations.FramedDataHidesReservedValues := by
  intro ds s t h hf
  have hsends : ∀ i ∈ ds.map Instr.txd, i.wireBytes ≠ [] := by
    intro i hi
    obtain ⟨d, -, rfl⟩ := List.mem_map.1 hi
    exact enc_ne_nil d
  refine ⟨ds.flatMap enc, ?_, ?_, escapesPaired_encoded ds⟩
  · rw [execAll_sends hsends h hf, List.flatMap_map]; rfl
  · intro hmem
    obtain ⟨d, -, hd⟩ := List.mem_flatMap.1 hmem
    exact flowChar_not_mem_enc d hd

/-! ### The unframer (R107, R108) -/

/-- R107, `esc = 0`: one row a case. -/
theorem exec_unf_idle {s : State} (hf : s.fault = false) (hesc : s.esc = false) (b : Byte) :
    exec (.unf b) s = .next
      (if b = 0xA5 then { s with esc := true, resCode := 0x08, resData := 0 }
       else if b = 0x13 then { s with resCode := 0x38, resData := 0x13 }
       else { s with resCode := 0x18, resData := b.setWidth 32 }) := by
  rw [exec_unf hf, if_neg (Bool.eq_false_iff.1 hesc), unfIdle]
  by_cases hescape : b = 0xA5
  · rw [if_pos hescape, if_pos hescape]; rfl
  rw [if_neg hescape, if_neg hescape]
  by_cases hflow : b = 0x13
  · rw [if_pos hflow, if_pos hflow, hflow]; rfl
  · rw [if_neg hflow, if_neg hflow]; rfl

/-- R107, `esc = 1`: one row a case, the first under each value of P_A525. -/
theorem exec_unf_follower {s : State} (hf : s.fault = false) (hesc : s.esc = true) (b : Byte) :
    exec (.unf b) s = .next
      (if b = 0x25 then
        (if s.params.a525 = .asData then { s with esc := false, resCode := 0x18, resData := 0xA5 }
         else { s with esc := false, resCode := 0x48, resData := 0x25 })
       else if b = 0x93 then { s with esc := false, resCode := 0x18, resData := 0x13 }
       else { s with esc := false, resCode := 0x28, resData := b.setWidth 32 }) := by
  rw [exec_unf hf, if_pos hesc]
  by_cases hescape : b = 0x25
  · subst hescape
    cases ha : s.params.a525 <;> simp [unfFollower, ha] <;> rfl
  by_cases hflow : b = 0x93
  · subst hflow; rfl
  · rw [unfFollower_token hescape hflow, if_neg hescape, if_neg hflow]; rfl

/-- Settles O29: `exec_keeps_esc`, the fault rule, and the two tables of rows. -/
theorem unfDecodesOneByte : Obligations.UnfDecodesOneByte :=
  ⟨fun _ _ _ hunf hclr h => exec_keeps_esc hunf hclr h, fun b _ =>
    ⟨(decodeEncodeAgree _ _).2 rfl, fun hf => exec_faulted hf nofun, fun hf hesc => exec_unf_idle hf hesc b,
      fun hf hesc => exec_unf_follower hf hesc b⟩⟩

/-- Settles O30: the fault rule aside, UNFCLR is `esc <- 0` and an OK. -/
theorem unfclrForgetsEscape : Obligations.UnfclrForgetsEscape :=
  ⟨(decodeEncodeAgree _ _).2 rfl, fun _ => ⟨fun hf => exec_unfclr hf, fun hf => exec_faulted hf nofun⟩⟩

/-! ### The unframer inverts the framer (R109) -/

theorem runCommands_cons {i : Instr} {is : List Instr} {s u t : State} {rs : List Result}
    (hi : exec i s = .next u) (his : runCommands is u = some (rs, t)) :
    runCommands (i :: is) s = some (u.readResult :: rs, t) := by
  rw [runCommands, hi]
  simp only [his, Option.map_some]

theorem runCommands_append {is js : List Instr} {s t u : State} {rs qs : List Result}
    (hi : runCommands is s = some (rs, t)) (hj : runCommands js t = some (qs, u)) :
    runCommands (is ++ js) s = some (rs ++ qs, u) := by
  induction is generalizing s rs with
  | nil => cases hi; exact hj
  | cons i is ih =>
    rw [runCommands] at hi
    cases hx : exec i s with
    | next v =>
      rw [hx] at hi
      obtain ⟨⟨rs', t'⟩, hrest, heq⟩ := Option.map_eq_some_iff.1 hi
      cases heq
      exact runCommands_cons hx (ih hrest)
    | fault e => rw [hx] at hi; cases hi
    | refused r => rw [hx] at hi; cases hi

/-- The symbol that one data byte comes back as (R109). -/
def dataSymbol (a : A525) (d : Byte) : Result :=
  if d = 0xA5 ∧ a = .asEnd then (0x48, 0x25) else (0x18, d.setWidth 32)

/-- The wire bytes `ws`, fed to UNF from `s`, give the symbols `syms` beside any NONE, and change nothing but the result
registers. -/
def Unframes (s : State) (ws : List Byte) (syms : List Result) : Prop :=
  ∃ rs t, runCommands (ws.map .unf) s = some (rs, t) ∧
    t = { s with resCode := t.resCode, resData := t.resData } ∧ rs.filter (fun r => r.1 ≠ 0x08) = syms

theorem unframes_nil (s : State) : Unframes s [] [] := ⟨[], s, rfl, rfl, rfl⟩

/-- What follows runs from a state that differs in the result registers. -/
theorem Unframes.append {s : State} {ws vs : List Byte} {xs ys : List Result} (hw : Unframes s ws xs)
    (hv : ∀ (c : Code) (x : Data), Unframes { s with resCode := c, resData := x } vs ys) :
    Unframes s (ws ++ vs) (xs ++ ys) := by
  obtain ⟨rs, t, hrun, hframe, hsyms⟩ := hw
  obtain ⟨qs, u, hrun', hframe', hsyms'⟩ := hv t.resCode t.resData
  rw [← hframe] at hrun'
  refine ⟨rs ++ qs, u, ?_, hframe', ?_⟩
  · rw [List.map_append]; exact runCommands_append hrun hrun'
  · rw [List.filter_append, hsyms, hsyms']

section
variable {s : State} (hf : s.fault = false) (hesc : s.esc = false)
include hf hesc

theorem unframes_plain {d : Byte} (hescape : d ≠ 0xA5) (hflow : d ≠ 0x13) :
    Unframes s [d] [(0x18, d.setWidth 32)] := by
  have hx := exec_unf_idle hf hesc d
  rw [if_neg hescape, if_neg hflow] at hx
  exact ⟨_, _, runCommands_cons hx rfl, rfl, rfl⟩

/-- R107: a pair is a NONE and the symbol of its follower, and leaves `esc` as it was before the pair. -/
theorem unframes_pair {c : Code} {x : Data} {f : Byte} (hc : c ≠ 0x08)
    (hfollower : ∀ r : State, r.fault = false → r.esc = true → r.params = s.params →
      exec (.unf f) r = .next { r with esc := false, resCode := c, resData := x }) :
    Unframes s [0xA5, f] [(c, x)] := by
  have hescape : exec (.unf 0xA5) s = .next { s with esc := true, resCode := 0x08, resData := 0 } :=
    exec_unf_idle hf hesc 0xA5
  have hpair := hfollower { s with esc := true, resCode := 0x08, resData := 0 } hf rfl rfl
  rw [← hesc] at hpair
  exact ⟨_, _, runCommands_cons hescape (runCommands_cons hpair rfl), rfl, by simpa [State.readResult] using hc⟩

/-- R109 for one byte: a case for each form of `enc`, and for the byte ESCAPE one for each P_A525. -/
theorem unframes_enc (d : Byte) : Unframes s (enc d) [dataSymbol s.params.a525 d] := by
  by_cases hescape : d = 0xA5
  · subst hescape
    cases ha : s.params.a525 with
    | asData =>
      change Unframes s [0xA5, 0x25] [(0x18, 0xA5)]
      refine unframes_pair hf hesc (by decide) fun r hrf hre hp => ?_
      rw [exec_unf_follower hrf hre, if_pos rfl, if_pos (by rw [hp, ha])]
    | asEnd =>
      change Unframes s [0xA5, 0x25] [(0x48, 0x25)]
      refine unframes_pair hf hesc (by decide) fun r hrf hre hp => ?_
      rw [exec_unf_follower hrf hre, if_pos rfl, if_neg (by rw [hp, ha]; decide)]
  by_cases hflow : d = 0x13
  · subst hflow
    change Unframes s [0xA5, 0x93] [(0x18, 0x13)]
    exact unframes_pair hf hesc (by decide) fun r hrf hre _ => exec_unf_follower hrf hre 0x93
  · rw [enc_eq_ite, if_neg hescape, if_neg hflow, dataSymbol, if_neg fun h => hescape h.1]
    exact unframes_plain hf hesc hescape hflow

end

/-- R109: by induction on the data, from every idle state. -/
theorem unframes_encoded (ds : List Byte) {s : State} (hf : s.fault = false) (hesc : s.esc = false) :
    Unframes s (ds.flatMap enc) (ds.map (dataSymbol s.params.a525)) := by
  induction ds generalizing s with
  | nil => exact unframes_nil s
  | cons d ds ih =>
    exact (unframes_enc hf hesc d).append fun c x => ih (s := { s with resCode := c, resData := x }) hf hesc

/-- Settles O31: `Unframes` of the encoding is the statement. -/
theorem unframerInvertsFramer : Obligations.UnframerInvertsFramer := fun ds _ hf hesc => unframes_encoded ds hf hesc

end Sys2Proof.Machine

/-! PROOFS. The CRC (spec/41_crc.md R130 to R137): the three forms of `CrcStep`, the residual, the commands that write and
read the accumulator, and the raw check-CRC exchange. -/

namespace Sys2Proof.Machine

/-! ### The three forms of `CrcStep` (R131) -/

theorem crcShifts_eq_iterate (n : Nat) (t : Crc) : crcShifts n t = crcShift^[n] t := by
  induction n generalizing t with
  | zero => rfl
  | succ n ih => rw [crcShifts, ih, Function.iterate_succ_apply]

theorem crcShift_eq_mask (t : Crc) : crcShift t = if t &&& 1 = 1 then (t >>> 1) ^^^ 0xA001 else t >>> 1 := by
  have hbit : t &&& 1 = 1 ↔ t.getLsbD 0 = true := by
    rw [show t &&& 1 = _ from BitVec.and_one_eq_setWidth_ofBool_getLsbD]
    cases t.getLsbD 0 <;> decide
  rw [crcShift]
  exact if_congr hbit.symm rfl rfl

/-- Settles O16: the recursion is the iterate, and testing bit 0 is masking it. -/
theorem crcStepIsBitSerial : Obligations.CrcStepIsBitSerial := by
  refine ⟨fun c b => ?_, by decide, by decide, by decide, by decide, by decide, by decide⟩
  rw [crcStep, crcShifts_eq_iterate]
  exact congrArg (fun f : Crc → Crc => f^[8] (c ^^^ b.setWidth 16)) (funext crcShift_eq_mask)

/-- The shifts are linear, and of the split `c ^ b` the high byte is moved down as it stands. -/
theorem crcStep_eq_table (c : Crc) (b : Byte) :
    crcStep c b = (c >>> 8) ^^^ crcStep 0x0000 (c.setWidth 8 ^^^ b) := by
  have hsplit : c ^^^ b.setWidth 16 =
      ((c >>> 8).setWidth 8).setWidth 16 <<< 8 ^^^ (c.setWidth 8 ^^^ b).setWidth 16 := by
    rw [BitVec.setWidth_xor, ← BitVec.xor_assoc, ← crc_split]
  calc crcStep c b
      = crcShifts 8 (((c >>> 8).setWidth 8).setWidth 16 <<< 8) ^^^ crcShifts 8 ((c.setWidth 8 ^^^ b).setWidth 16) := by
        rw [crcStep, hsplit, crcShifts_xor]
    _ = (c >>> 8) ^^^ crcStep 0x0000 (c.setWidth 8 ^^^ b) := by
        rw [crcShifts_high, crc_high, crcStep, show (0x0000 : Crc) ^^^ _ = _ from BitVec.zero_xor]

/-- Settles O17. -/
theorem crcStepMatchesTableForm : Obligations.CrcStepMatchesTableForm := crcStep_eq_table

/-- One iteration of the polynomial `0x8005`, most significant bit first. -/
def msbShift (t : Crc) : Crc := if t.msb then (t <<< 1) ^^^ 0x8005 else t <<< 1

theorem crcShift_semiconj_msbShift : Function.Semiconj BitVec.reverse crcShift msbShift := crcShift_reverse

/-- Settles O18: reversal carries each iteration to the other end's, so it carries eight to eight. -/
theorem crcStepMatchesMsbFirstForm : Obligations.CrcStepMatchesMsbFirstForm := by
  intro c b
  have hiterates := crcShift_semiconj_msbShift.iterate_right 8 (c ^^^ b.setWidth 16)
  rw [reverse16_xor, reverse16_byte, ← crcShifts_eq_iterate] at hiterates
  exact (reverse16_reverse _).symm.trans (congrArg BitVec.reverse hiterates)

/-! ### The residual (R133) -/

theorem crcLow_eq (c : Crc) : crcLow c = c.setWidth 8 := (BitVec.setWidth_eq_extractLsb' (by decide)).symm

theorem crcHigh_eq (c : Crc) : crcHigh c = (c >>> 8).setWidth 8 := BitVec.setWidth_ushiftRight_eq_extractLsb.symm

/-- A step on the accumulator's own low byte only shifts it out. -/
theorem crcStep_low (c : Crc) : crcStep c (c.setWidth 8) = c >>> 8 := by
  have hzero : crcStep 0x0000 0#8 = 0#16 := by decide
  rw [crcStep_eq_table, BitVec.xor_self, hzero, BitVec.xor_zero]

theorem crcFold_own_bytes (c : Crc) : crcFold c [crcLow c, crcHigh c] = 0x0000 := by
  rw [crcFold_cons, crcFold_cons, crcFold_nil, crcLow_eq, crcHigh_eq, crcStep_low, crcStep_low, ← BitVec.shiftRight_add]
  exact BitVec.ushiftRight_eq_zero (by decide)

/-- Settles O19: after any message, `crcFold_own_bytes` of what it left; the other order is computed bit by bit. -/
theorem crcResidualIsZero : Obligations.CrcResidualIsZero := by
  refine ⟨fun m => ?_, ?_⟩
  · rw [crcFold_append]
    exact crcFold_own_bytes _
  · simp [crcStep, crcShifts, crcShift]

/-! ### The accumulator and its commands (R130, R134, R135) -/

/-- Settles O20: three of the things `ExecEffect` says of every command. -/
theorem crcFollowsTheWire : Obligations.CrcFollowsTheWire := by
  intro i s t h
  obtain ⟨sent, taken, he⟩ := exec_effect h
  exact ⟨sent, he.named, he.tx, he.crc⟩

/-- Settles O14. -/
theorem crcclrClearsAccumulator : Obligations.CrcclrClearsAccumulator :=
  ⟨(decodeEncodeAgree _ _).2 rfl, fun _ => ⟨fun hf => exec_crcclr hf, fun hf => exec_faulted hf nofun⟩⟩

theorem crcData_low (c : Crc) : (crcData c).extractLsb' 0 8 = crcLow c := BitVec.extractLsb'_setWidth_of_le (by decide)

theorem crcData_high (c : Crc) : (crcData c).extractLsb' 8 8 = crcHigh c := BitVec.extractLsb'_setWidth_of_le (by decide)

/-- Settles O15: zero extension keeps the number and both bytes. -/
theorem crcrdReadsAccumulator : Obligations.CrcrdReadsAccumulator := by
  refine ⟨(decodeEncodeAgree _ _).2 rfl, fun s => ⟨fun hf => ?_, fun hf => exec_faulted hf nofun⟩⟩
  exact ⟨_, exec_crcrd hf, rfl, BitVec.toNat_setWidth_of_le (by decide), crcData_low s.crc, crcData_high s.crc⟩

/-! ### The raw check-CRC exchange (R137) -/

/-- From `s` to `t` the wire bytes `ws` went out and a result was left, and nothing else changed. -/
def Sends (s t : State) (ws : List Byte) : Prop :=
  t = { s.afterSending ws with resCode := t.resCode, resData := t.resData }

theorem Sends.append {s t u : State} {ws vs : List Byte} (h : Sends s t ws) (h' : Sends t u vs) :
    Sends s u (ws ++ vs) := by
  rw [Sends, h', h]
  cases how : s.ow <;> simp [State.afterSending, how, crcFold_append, Nat.add_assoc]

/-- The room that one sending leaves. -/
theorem Sends.hasRoom {s t : State} {ws : List Byte} {n : Nat} (h : Sends s t ws) (hroom : s.hasRoom (ws.length + n)) :
    t.hasRoom n := by
  rw [h]
  intro how
  have hbound := hroom how
  simp only [State.afterSending, State.pendMax] at how hbound ⊢
  rw [if_pos how]
  omega

theorem exec_transmit_sends {i : Instr} {s : State} (hw : i.wireBytes ≠ []) (hf : s.fault = false)
    (hroom : s.hasRoom i.wireBytes.length) : ∃ t, exec i s = .next t ∧ Sends s t i.wireBytes :=
  ⟨_, (transmitRule_wireBytes hw s).2.1 hf hroom, rfl⟩

/-- R89: with room for two bytes, CRCSEND sends the snapshot's low and high byte as they stand. -/
theorem crcSend_raw_sends {s : State} (hf : s.fault = false) (hroom : s.hasRoom 2) :
    ∃ t, crcSend false s = .next t ∧ Sends s t [crcLow s.crc, crcHigh s.crc] := by
  obtain ⟨t, ht, hsent⟩ := execAll_room (is := [.txr (crcLow s.crc), .txr (crcHigh s.crc)])
    (s := s.result .crc 0 (crcData s.crc)) (by simp [Instr.wireBytes]) hf hroom
  refine ⟨t, ?_, hsent⟩
  rw [crcSend, exec_crcrd hf, andThen, State.result_resData, crcData_low, crcData_high]
  exact ht

/-- The RXRD after `ws` went out discards the echoes pending by then and returns the byte behind them. -/
theorem Sends.rxrd {s t : State} {ws es : List Byte} {b : Byte} {rest : List Answer} (h : Sends s t ws)
    (hf : s.fault = false) (hl : es.length = if s.ow then s.pend + ws.length else s.pend)
    (hrx : s.rx = byteAnswers es ++ .byte b :: rest) :
    exec .rxrd t = .next ({ t with pend := 0, rx := rest }.resultByte b) := by
  have hfault : t.fault = false := by rw [h]; exact hf
  rw [exec_rxrd hfault]
  exact receiveOne_byte (es := es) (by rw [h]; exact hrx) (by rw [h]; exact hl)

/-- Settles O56: TXC sends two bytes, CRCSEND the two of the CRC after them, which `crcFold_own_bytes` folds to zero. -/
theorem checkCrcExchangeLeavesZero : Obligations.CheckCrcExchangeLeavesZero := by
  intro c s es b rest hraw hf hroom hl hrx
  obtain ⟨s₁, hcmd, hs₁⟩ := exec_transmit_sends (i := .txc c.opcodes.checkCrc) nofun hf
    fun how => (Nat.add_le_add_left (by decide : 2 ≤ 4) _).trans (hroom how)
  obtain ⟨s₂, hsend, hs₂⟩ := crcSend_raw_sends (s := s₁) (by rw [hs₁]; exact hf) (hs₁.hasRoom hroom)
  have hsent := hs₁.append hs₂
  have hcrc₁ : s₁.crc = crcFold s.crc [0xA5, c.opcodes.checkCrc] := by rw [hs₁]; rfl
  refine ⟨{ s₂ with pend := 0, rx := rest }.resultByte b, ?_, ?_, rfl, rfl, rfl, ?_⟩
  · rw [checkCrcExchange, hcmd, andThen, hraw, hsend, andThen]
    exact hsent.rxrd hf hl hrx
  · change s₂.crc = 0x0000
    rw [hs₂]
    exact crcFold_own_bytes s₁.crc
  · change s₂.tx = _
    rw [hsent, ← hcrc₁]
    rfl

end Sys2Proof.Machine

/-! PROOFS. The echo suppressor (spec/42_echo.md R151 to R155): what RXRD, EPROBE and ECLR do in every state, that the
echoes of sent bytes are discarded, and that a discarded byte is not examined. -/

namespace Sys2Proof.Machine

/-! ### The commands (R152 to R154) -/

/-- Settles O33: what `receiveOne` does on each of the two streams. -/
theorem rxrdReadsSurfacedByte : Obligations.RxrdReadsSurfacedByte := by
  refine ⟨(decodeEncodeAgree _ _).2 rfl, fun s =>
    ⟨fun hf => exec_faulted hf nofun, fun es b rest hf hrx hl => ?_, fun es rest hf hrx hl => ?_⟩⟩
  · rw [exec_rxrd hf, receiveOne_byte hrx hl]; rfl
  · rw [exec_rxrd hf, receiveOne_timeout hrx hl]; rfl

/-- Settles O34: as RXRD, with a case for each answer of the comparison. -/
theorem eprobeDetectsOneWire : Obligations.EprobeDetectsOneWire := by
  refine fun ref s => ⟨(decodeEncodeAgree _ _).2 rfl,
    fun hf => exec_faulted hf nofun, fun es b rest hf hrx hl => ?_, fun es rest hf hrx hl => ?_⟩
  · rw [exec_eprobe hf, receiveOne_byte hrx hl, probeByte]
    by_cases hb : b = ref
    · rw [if_pos hb, if_pos hb]; rfl
    · rw [if_neg hb, if_neg hb]; rfl
  · rw [exec_eprobe hf, receiveOne_timeout hrx hl]; rfl

/-- Settles O35. -/
theorem eclrForgetsEchoes : Obligations.EclrForgetsEchoes :=
  ⟨(decodeEncodeAgree _ _).2 rfl, fun _ => ⟨fun hf => exec_eclr hf, fun hf => exec_faulted hf nofun⟩⟩

/-! ### The echoes of sent bytes (R155) -/

/-- Settles O38: each sent byte was counted, so the counter is the number of echoes in front of `b`. -/
theorem echoesOfSentBytesAreDiscarded : Obligations.EchoesOfSentBytesAreDiscarded := by
  intro cmds s es b rest hf how hp hw hfits hl hrx
  obtain ⟨u, hu, hsent⟩ : ∃ u, execAll cmds s = .next u ∧ Sends s u (cmds.flatMap Instr.wireBytes) :=
    execAll_room hw hf fun _ => by rwa [hp, Nat.zero_add]
  have hcounted : es.length = if s.ow then s.pend + (cmds.flatMap Instr.wireBytes).length else s.pend := by
    rw [if_pos how, hp, Nat.zero_add, hl]
  have hpend : u.pend = es.length := by rw [hsent, hcounted]; rfl
  have hstream : u.rx = s.rx := by rw [hsent]; rfl
  refine ⟨u, _, hu, hpend, hstream, by rw [hsent]; rfl, ?_, hsent.rxrd hf hcounted hrx, rfl, rfl, rfl, rfl, rfl⟩
  rw [recvSurfaced, hstream, hrx, recvFrom_byte _ _ _ _ hpend.symm]

/-! ### Discarded bytes (R151) -/

/-- The state with the echoes `es` in front of the answers `rest`. -/
def State.withEchoes (s : State) (es : List Byte) (rest : List Answer) : State :=
  { s with rx := byteAnswers es ++ rest }

/-- The state once `n` echoes in front of the answers `rest` are discarded. -/
def State.discarded (s : State) (n : Nat) (rest : List Answer) : State := { s with rx := rest, pend := s.pend - n }

section
variable {s : State} {es : List Byte} (hl : es.length ≤ s.pend) (rest : List Answer)
include hl

theorem recvSurfaced_withEchoes :
    recvSurfaced (s.withEchoes es rest) = recvSurfaced (s.discarded es.length rest) :=
  calc
    _ = recvFrom rest { s.withEchoes es rest with pend := s.pend - es.length } := recvFrom_echoes es rest _ hl
    _ = recvFrom rest (s.discarded es.length rest) :=
      recvFrom_ignores_rx rest (byteAnswers es ++ rest) (s.discarded es.length rest)

theorem receiveOne_withEchoes (onByte : Byte → State → State) :
    receiveOne onByte (s.withEchoes es rest) = receiveOne onByte (s.discarded es.length rest) := by
  rw [receiveOne, recvSurfaced_withEchoes hl, receiveOne]

/-- Echoes are pending only for DEC's first byte, and with fuel for both streams the loop reads that one alike. -/
theorem decRun_withEchoes (d : Decoder) : decRun d (s.withEchoes es rest) = decRun d (s.discarded es.length rest) := by
  have hfirst : recvSurfaced ((s.withEchoes es rest).setDecoder d) =
      recvSurfaced ((s.discarded es.length rest).setDecoder d) := recvSurfaced_withEchoes (s := s.setDecoder d) hl rest
  rw [← decLoop_fuel (fuel := es.length + rest.length + 1) (by simp [State.withEchoes]),
    ← decLoop_fuel (fuel := es.length + rest.length + 1) (by change rest.length ≤ _; omega),
    decLoop, hfirst, decLoop]

/-- A command that receives starts as if the pending echoes in front were gone, whatever they are. -/
theorem exec_withEchoes {i : Instr} (hr : i.receives = true) (hf : s.fault = false) :
    exec i (s.withEchoes es rest) = exec i (s.discarded es.length rest) := by
  have hbefore : (s.withEchoes es rest).fault = false := hf
  have hafter : (s.discarded es.length rest).fault = false := hf
  cases i <;> simp [Instr.receives] at hr
  case rxrd => rw [exec_rxrd hbefore, exec_rxrd hafter, receiveOne_withEchoes hl]
  case eprobe ref => rw [exec_eprobe hbefore, exec_eprobe hafter, receiveOne_withEchoes hl]
  case dec => rw [exec_dec hbefore, exec_dec hafter, decRun_withEchoes hl]

end

/-- Settles O39: `State.discarded` holds the number of the echoes and none of them. -/
theorem discardedBytesAreNotExamined : Obligations.DiscardedBytesAreNotExamined := by
  intro i s es es' rest hr hf hlen hl
  change exec i (s.withEchoes es rest) = exec i (s.withEchoes es' rest)
  rw [exec_withEchoes hl rest hr hf, exec_withEchoes (hlen ▸ hl) rest hr hf, hlen]

end Sys2Proof.Machine

/-! PROOFS. The response decoder (spec/43_decoder.md R170 to R177): what DEC answers to a whole reply, and to a timeout
in each of its states. -/

namespace Sys2Proof.Machine

/-! ### A whole reply (R170, R175, R176) -/

/-- The SUCCESS token ends DEC with the announced length and the value so far (R176). -/
theorem decRun_success {s : State} {n r : BitVec 3} {v : Data} {rest : List Answer} (hp : s.pend = 0)
    (hrx : s.rx = .byte 0xAA :: rest) :
    decRun ⟨.sTerm, n, r, v⟩ s =
      .next ({ s with pend := 0, rx := rest, decoder := none }.result .value (n.setWidth 4) v) := by
  rw [decRun_surfaced (es := []) hrx hp.symm]; rfl

/-- A value of at most four bytes does not wrap around (R175). -/
theorem bigEndian_lt_of_length_le {vs : List Byte} (h4 : vs.length ≤ 4) : bigEndian vs < 2 ^ 32 :=
  calc
    bigEndian vs < 256 ^ vs.length := bigEndian_lt vs
    _ ≤ 256 ^ 4 := Nat.pow_le_pow_right (by decide) h4
    _ = 2 ^ 32 := by decide

/-- Settles O42: after its value bytes the decoder waits in `S_TERM` with the value, and the SUCCESS gives it out. -/
theorem decDecodesReply : Obligations.DecDecodesReply := by
  refine ⟨(decodeEncodeAgree _ _).2 rfl, fun s es vs rest hf hl h1 h4 hrx => ⟨bigEndian_lt_of_length_le h4, ?_⟩⟩
  have haux : (BitVec.ofNat 3 vs.length).setWidth 4 = BitVec.ofNat 4 vs.length :=
    BitVec.setWidth_ofNat_of_le_of_lt (by decide) (by omega)
  rw [exec_dec hf, decRun_announced (vs := vs) (rest := .byte 0xAA :: rest) hl h1 h4 le_rfl (by simp [hrx]), if_pos rfl,
    decRun_success rfl rfl, haux]
  rfl

/-! ### Timeouts (R177) -/

/-- A timeout with no echo pending ends DEC in the state that was waiting. -/
theorem decRun_timeout_now {d : Decoder} {s : State} {rest : List Answer} (hrx : s.rx = .timeout :: rest) :
    decRun d s = .next ({ s with rx := rest, decoder := none }.result .timeout d.dst.bits 0) :=
  decRun_timeout (es := []) hrx (Nat.zero_le _)

/-- A timeout within a reply, after the length byte: it is reported for `S_TERM` if every value byte is there, and for
`S_ACC` otherwise. -/
theorem decRun_timeout_announced {s : State} {es vs : List Byte} {n : Nat} {rest : List Answer}
    (hl : es.length = s.pend) (h1 : 1 ≤ n) (h4 : n ≤ 4) (hv : vs.length ≤ n)
    (hrx : s.rx = byteAnswers (es ++ [0xA8, BitVec.ofNat 8 n] ++ vs) ++ .timeout :: rest) :
    decRun decoderInit s = .next ({ s with pend := 0, rx := rest, decoder := none }.result .timeout
      (if vs.length = n then DecState.sTerm else .sAcc).bits 0) := by
  rw [decRun_announced hl h1 h4 hv hrx, decRun_timeout_now rfl]

/-- Settles O45: a clause for each state, in the order of a reply. -/
theorem decReportsTimeouts : Obligations.DecReportsTimeouts := by
  refine fun s es vs n rest hf => ⟨fun hl hrx => ?_, fun hl hrx => ?_, fun hl hv h4 hrx => ?_, fun hl h1 h4 hrx => ?_⟩
  · rw [exec_dec hf, decRun_timeout hrx hl]; rfl
  · rw [exec_dec hf, decRun_answer (rest := .timeout :: rest) hl (by simp [hrx]), decRun_timeout_now rfl]; rfl
  · rw [exec_dec hf, decRun_timeout_announced hl (Nat.one_le_of_lt hv) h4 hv.le hrx, if_neg hv.ne]; rfl
  · rw [exec_dec hf, decRun_timeout_announced hl h1 h4 le_rfl hrx, if_pos rfl]; rfl

end Sys2Proof.Machine

/-! PROOFS. Control (spec/44_control.md R190 to R193): the order of dispatch, what an illegal word is and does, and what
NOP and STAT leave. -/

namespace Sys2Proof.Machine

/-! ### Illegal words (R73, R191) -/

/-- A word that stands for no command is illegal. -/
theorem decodeWord_error_iff (w : Word) : (∃ e, decodeWord w = .error e) ↔ ¬∃ i, decodeWord w = .ok i := by
  cases decodeWord w <;> simp

theorem reservedOp_of_le {w : Word} (h : 0xE000 ≤ w.toNat) : 0xD < (w >>> 12).toNat := by
  rw [BitVec.toNat_ushiftRight, Nat.shiftRight_eq_div_pow]
  omega

/-- R72: no opcode is both of a command with an operand and of one without. -/
theorem plainOp_takes_no_operand :
    ∀ op ∈ [0x0, 0x1, 0x2, 0x6, 0x7, 0x9, 0xA, 0xC, 0xD], op ∉ [0x3, 0x4, 0x5, 0x8, 0xB] := by decide

/-- Settles O7: each family of words breaks one of R73's conditions, and the step leaves what `runWord_error` says. -/
theorem illegalWordOnlyWritesResult : Obligations.IllegalWordOnlyWritesResult := by
  refine ⟨fun w h => ?_, fun w hop harg => ?_, fun s w rest e hin hd => ?_⟩
  · rw [decodeWord_error_iff, decodes_iff_conditions]
    rintro ⟨hle, hrsv, -⟩
    rcases h with hhigh | hne
    · exact (reservedOp_of_le hhigh).not_ge hle
    · exact hne hrsv
  · rw [decodeWord_error_iff, decodes_iff_conditions]
    rintro ⟨-, -, hoperand | hzero⟩
    · exact plainOp_takes_no_operand _ hop hoperand
    · exact harg hzero
  · rw [step_command hin, runWord_error hd]; rfl

/-! ### Dispatch (R193) -/

/-- Settles O6: only STAT, the one command of opcode `0xD`, is exempt from the fault rule. -/
theorem dispatchOrder : Obligations.DispatchOrder := by
  refine fun w s => ⟨fun e hd => runWord_error hd s, fun i hd hf hop => ?_, fun i hd _ => runWord_ok hd s⟩
  have hstat : i ≠ .stat := by
    rintro rfl
    exact hop ((decodeWord_ok_iff w .stat).1 hd).1
  rw [runWord_ok hd]
  exact exec_faulted hf hstat

/-! ### NOP and STAT (R190, R192) -/

/-- Settles O12. -/
theorem nopWritesOnlyResult : Obligations.NopWritesOnlyResult :=
  ⟨(decodeEncodeAgree _ _).2 rfl, fun _ => ⟨fun hf => exec_nop hf, fun hf => exec_faulted hf nofun⟩⟩

/-- Bit `k` of `aux` is bit `4 + k` of `res_code` (R80). -/
theorem code_getLsbD_aux (aux code : Nibble) (k : Nat) : (aux ++ code : Code).getLsbD (4 + k) = aux.getLsbD k :=
  BitVec.getLsbD_append.trans (by simp)

/-- R29, bit by bit. -/
theorem statusAux_bits (s : State) :
    (statusAux s).getLsbD 0 = s.ow ∧ (statusAux s).getLsbD 1 = s.esc ∧ (statusAux s).getLsbD 2 = s.fault ∧
      (statusAux s).getLsbD 3 = false := by
  unfold statusAux
  cases s.ow <;> cases s.esc <;> cases s.fault <;> decide

/-- R7: PEND_W is at most 32. -/
theorem pendMax_lt {p : Params} (h : p.wf = true) : p.pendMax < 2 ^ 32 := by
  have hw : p.pendW ≤ 32 := by simp [Params.wf] at h; exact h.2
  calc
    p.pendMax < 2 ^ p.pendW := Nat.sub_lt (Nat.two_pow_pos _) (by decide)
    _ ≤ 2 ^ 32 := Nat.pow_le_pow_right (by decide) hw

/-- A counter within its bound is returned whole (R192). -/
theorem pendData_toNat {s : State} (h : s.Ok) : (pendData s.pend).toNat = s.pend := by
  rw [pendData, BitVec.toNat_ofNat]
  exact Nat.mod_eq_of_lt (h.pend.trans_lt (pendMax_lt h.params))

/-- Settles O13: the bits of `res_code` are STATUS and those of `statusAux`. -/
theorem statReportsFlagsAndCounter : Obligations.StatReportsFlagsAndCounter := by
  refine ⟨(decodeEncodeAgree _ _).2 rfl, fun s => ⟨_, exec_stat s, rfl, code_append _ _, ?_⟩⟩
  obtain ⟨how, hesc, hfault, hzero⟩ := statusAux_bits s
  exact ⟨(code_getLsbD_aux _ _ 0).trans how, (code_getLsbD_aux _ _ 1).trans hesc,
    (code_getLsbD_aux _ _ 2).trans hfault, (code_getLsbD_aux _ _ 3).trans hzero, rfl, pendData_toNat⟩

end Sys2Proof.Machine

/-! PROOFS. What the block does instead of taking an exception (spec/60_exceptions.md R200 to R209): the results DEC
ends with on a FAIL token or a byte its state does not accept, that no command both sends and receives, and that nothing
happens between commands. -/

namespace Sys2Proof.Machine

/-! ### A byte that ends DEC (R203, R206) -/

/-- A terminal transition consumes the pending echoes and the byte that caused it, and no further byte. -/
theorem decRun_ends {d : Decoder} {s : State} {es : List Byte} {b : Byte} {rest : List Answer} {code : ResultCode}
    {aux : Nibble} {data : Data} (hrx : s.rx = byteAnswers es ++ .byte b :: rest) (hl : es.length = s.pend)
    (ht : decTransition b d = .ends code aux data) :
    decRun d s = .next ({ s with pend := 0, rx := rest, decoder := none }.result code aux data) := by
  rw [decRun_surfaced hrx hl, ht]

/-- R173: `S_TOKEN` accepts FAIL and ANSWER. -/
theorem decTransition_token_viol {b : Byte} (hfail : b ≠ 0xAB) (hanswer : b ≠ 0xA8) (n r : BitVec 3) (v : Data) :
    decTransition b ⟨.sToken, n, r, v⟩ = decViol .sToken b :=
  (if_neg hfail).trans (if_neg hanswer)

/-- R174: `S_LEN` accepts 1 to 4. -/
theorem decTransition_len_viol {b : Byte} (hb : b = 0 ∨ 5 ≤ b.toNat) (n r : BitVec 3) (v : Data) :
    decTransition b ⟨.sLen, n, r, v⟩ = decViol .sLen b := by
  refine if_neg fun ⟨h1, h4⟩ => ?_
  rcases hb with rfl | h5
  · exact absurd h1 (by decide)
  · omega

/-- R176: `S_TERM` accepts SUCCESS. -/
theorem decTransition_term_viol {b : Byte} (hsuccess : b ≠ 0xAA) (n r : BitVec 3) (v : Data) :
    decTransition b ⟨.sTerm, n, r, v⟩ = decViol .sTerm b :=
  if_neg hsuccess

/-- Settles O44: a clause for each state that refuses bytes, in the order of a reply. -/
theorem decReportsViolations : Obligations.DecReportsViolations := by
  refine fun s es vs b rest hf hl =>
    ⟨fun hrx hfail hanswer => ?_, fun hrx hb => ?_, fun h1 h4 hrx hsuccess => ?_⟩
  · rw [exec_dec hf, decRun_ends (d := decoderInit) (by simpa using hrx) hl
      (decTransition_token_viol hfail hanswer 0 0 0)]
    rfl
  · rw [exec_dec hf, decRun_answer (rest := .byte b :: rest) hl (by simp [hrx]),
      decRun_ends (es := []) rfl rfl (decTransition_len_viol hb 0 0 0)]
    rfl
  · rw [exec_dec hf, decRun_announced (vs := vs) (rest := .byte b :: rest) hl h1 h4 le_rfl (by simp [hrx]), if_pos rfl,
      decRun_ends (es := []) rfl rfl (decTransition_term_viol hsuccess _ _ _)]
    rfl

/-- Settles O43: FAIL ends `S_TOKEN`. -/
theorem decReportsFail : Obligations.DecReportsFail := by
  intro s es rest hf hl hrx
  rw [exec_dec hf, decRun_ends (code := .fail) (by simpa using hrx) hl rfl]
  rfl

/-! ### The two streams (R61, R207) -/

/-- Settles O51: `exec_effect` gives the bytes sent and the answers taken, and a receiving command names no bytes. -/
theorem noCommandSendsAndReceives : Obligations.NoCommandSendsAndReceives := by
  intro i s t h
  obtain ⟨sent, taken, he⟩ := exec_effect h
  have hrx (hr : i.receives = false) : t.rx = s.rx := by rw [he.rx, he.takesNone hr, List.nil_append]
  have htx (hw : i.wireBytes = []) : t.tx = s.tx := by
    have hsent : sent = [] := List.prefix_nil.1 (hw ▸ he.named)
    rw [he.tx, hsent, List.append_nil]
  refine ⟨hrx, htx, ?_⟩
  cases hr : i.receives
  · exact .inr (hrx hr)
  · exact .inl (htx (wireBytes_of_receives hr))

/-! ### Between commands (R209, R220) -/

/-- Settles O8. -/
theorem idleBlockChangesNothing : Obligations.IdleBlockChangesNothing := by
  intro s h
  rw [step, nextInput, h]

end Sys2Proof.Machine

/-! PROOFS. Reset and hazards (spec/70_reset_and_hazards.md R220, R227, R230): the reset values, the commands a device
cannot tell apart, and a window of data bytes within the echo counter's bound. -/

namespace Sys2Proof.Machine

/-! ### The reset values (R220) -/

theorem step_reset {s : State} {rest : List Input} (h : s.inputs = .reset :: rest) :
    step s = .next (s.withInputs rest).resetInput := by
  rw [step, nextInput, h]; rfl

/-- Settles O9: the state after the reset input is `State.resetInput`. -/
theorem resetInputRestoresRegisters : Obligations.ResetInputRestoresRegisters := by
  refine ⟨⟨rfl, rfl, rfl, rfl, rfl, rfl, rfl, rfl⟩, fun s rest hin => ?_⟩
  exact ⟨_, step_reset hin, rfl, rfl, rfl, rfl, rfl, rfl, rfl, rfl, rfl, rfl, rfl⟩

/-! ### Commands that name the same wire bytes (R227) -/

theorem ne_stat_of_sends {i : Instr} (hw : i.wireBytes ≠ []) : i ≠ .stat := by
  rintro rfl
  exact hw rfl

/-- A transmit command is known by its wire bytes alone, faulted or not. -/
theorem exec_eq_of_wireBytes_eq {i j : Instr} (h : i.wireBytes = j.wireBytes) (hw : i.wireBytes ≠ []) (s : State) :
    exec i s = exec j s := by
  have hw' : j.wireBytes ≠ [] := h ▸ hw
  cases hf : s.fault
  · rw [exec_transmit hf hw, exec_transmit hf hw', h]
  · rw [exec_faulted hf (ne_stat_of_sends hw), exec_faulted hf (ne_stat_of_sends hw')]

/-- Settles O27: TXD 0xA5, TXC 0x25 and TXE all name `A5 25`, and TXC 0x93 and TXD 0x13 name `A5 93`. -/
theorem wireAmbiguity : Obligations.WireAmbiguity := fun s =>
  ⟨exec_eq_of_wireBytes_eq (i := .txd 0xA5) rfl (enc_ne_nil _) s,
    exec_eq_of_wireBytes_eq (i := .txc 0x25) rfl nofun s, exec_eq_of_wireBytes_eq (i := .txc 0x93) rfl nofun s⟩

/-! ### A window within the counter's bound (R230) -/

theorem enc_length_le (d : Byte) : (enc d).length ≤ 2 := by
  rcases enc_shape d with ⟨h, -, -⟩ | h | h <;> simp [h]

theorem encoded_length_le (ds : List Byte) : (ds.flatMap enc).length ≤ 2 * ds.length := by
  induction ds with
  | nil => simp
  | cons d ds ih =>
    have hd := enc_length_le d
    rw [List.flatMap_cons, List.length_append, List.length_cons]
    omega

/-- A command and its window of data bytes. -/
def window (op8 : Byte) (ds : List Byte) : List Instr := .txc op8 :: ds.map .txd

theorem window_sends (op8 : Byte) (ds : List Byte) : ∀ i ∈ window op8 ds, i.wireBytes ≠ [] :=
  List.forall_mem_cons.2 ⟨nofun, List.forall_mem_map.2 fun d _ => enc_ne_nil d⟩

theorem window_wireBytes (op8 : Byte) (ds : List Byte) :
    (window op8 ds).flatMap Instr.wireBytes = [0xA5, op8] ++ ds.flatMap enc := by
  rw [window, List.flatMap_cons, List.flatMap_map]; rfl

theorem window_length_le (op8 : Byte) (ds : List Byte) :
    ((window op8 ds).flatMap Instr.wireBytes).length ≤ 2 * ds.length + 2 := by
  have hdata := encoded_length_le ds
  rw [window_wireBytes, List.length_append, List.length_cons, List.length_singleton]
  omega

/-- Settles O28: the window's at most `2 * bufferSize + 2` wire bytes all fit the counter. -/
theorem windowWithinBoundDoesNotFault : Obligations.WindowWithinBoundDoesNotFault := by
  intro s op8 ds bufferSize hf hp hds hmax
  have hroom : s.hasRoom ((window op8 ds).flatMap Instr.wireBytes).length := by
    intro _
    have hlength := window_length_le op8 ds
    omega
  obtain ⟨t, ht, hsent⟩ := execAll_room (window_sends op8 ds) hf hroom
  rw [window_wireBytes] at hsent
  refine ⟨t, ht, ?_, ?_⟩
  · rw [hsent]
    exact hf
  · rw [hsent, List.append_assoc]
    rfl

end Sys2Proof.Machine
